-- ==== Sys2Proof/Word.lean ====
section
/-! DEFINITION. The bit widths of the block (spec/00_scope.md R7, spec/30_encoding.md R70, R79).
Only values that the spec treats as bits are bit vectors; counters and flat offsets are naturals
(spec/00_scope.md section 6: "All arithmetic that forms an offset is over unbounded naturals"). -/

namespace Sys2Proof

/-- A byte, the only data width of the bus port and of the image ports (R7, R58). -/
abbrev Byte := BitVec 8

/-- A bus address, `A[15:0]` (R7). -/
abbrev Addr := BitVec 16

/-- A transaction word `T`, 27 bits (R70). -/
abbrev BusWord := BitVec 27

/-- A phase code, 3 bits (R79). -/
abbrev PhaseCode := BitVec 3

end Sys2Proof
end

