-- ==== Sys2Proof/Config.lean ====
section
/-! DEFINITION. What is fixed for the machine: the constants the spec states (R7), the defaults it
gives its parameters (R8), and the values it leaves open, which have no body here. The parameters
themselves (`OPEN_BUS`, `MAIN_CYCLES`, `RTC_TICKS_PER_SECOND`, the images) are fields of `Session`
in Machine/State.lean, so that a statement about every state is a statement about every value of
them. -/

namespace Sys2Proof.Config

/-- Bytes of one ROM bank (R7: "16 KiB ROM"). -/
def romBankBytes : Nat := 16384

/-- Bytes of one RAM bank (R7: "8 KiB RAM"). -/
def ramBankBytes : Nat := 8192

/-- The sizes an external RAM image may have (R6). -/
def legalRamSizes : List Nat := [0, 8192, 16384, 24576, 32768]

/-- The default of the parameter `OPEN_BUS` (R8). -/
def defaultOpenBus : Byte := 0xFF

/-- The default of `CLOCK_HZ` and, through it, of `RTC_TICKS_PER_SECOND` (R8, there marked
"from general knowledge"). -/
def defaultClockHz : Nat := 4194304

/-- `MAIN_CYCLES - 1` of the session that `State.reset` starts. R8 gives the parameter no value and
asks only that it be at least 1, so it is left open: nothing can be proved of it (log entry 5). -/
opaque mainCyclesLessOne : Nat

/-- The bytes with which the general memory component answers forwarded reads, one per forwarded
read of a session. R94: "A model gives a forwarded read an arbitrary byte (an oracle answer) and must
not assume `OPEN_BUS` or 0". Left open (log entry 6). -/
opaque generalMemoryByte : Nat → Byte

end Sys2Proof.Config
end

