-- ==== Sys2Proof/Syntax.lean ====
section
/-! DEFINITION. The operations of the block: one constructor of `Instr` per row of
spec/opcode_table.json, that is the 22 bus rows of the decode map (R76) and the 6 scheduler phases
(R79). A read row has no data operand: R70 says `D` "on a read ... is ignored by the decoder". -/

namespace Sys2Proof

/-- `SCHEME` (R6). `unsupported` stands for metadata that names a scheme with "no implemented control
logic". -/
inductive Scheme where
  | none
  | scheme1
  | scheme3
  | unsupported
  deriving DecidableEq, Repr

/-- The direction `W` of a transaction (R70). -/
inductive Dir where
  | read
  | write
  deriving DecidableEq, Repr

/-- The operations. `a` is the bus address `A`, `v` the written byte `D`. -/
inductive Instr where
  /-- `N.RD.ROM` (R90) -/
  | nRdRom (a : Addr)
  /-- `N.WR.ROM` (R91) -/
  | nWrRom (a : Addr) (v : Byte)
  /-- `N.RD.X` (R92) -/
  | nRdX (a : Addr)
  /-- `N.WR.X` (R93) -/
  | nWrX (a : Addr) (v : Byte)
  /-- `S1.WR.RAMEN` (R100) -/
  | s1WrRamen (a : Addr) (v : Byte)
  /-- `S1.WR.ROMLO` (R101) -/
  | s1WrRomlo (a : Addr) (v : Byte)
  /-- `S1.WR.UPPER` (R102) -/
  | s1WrUpper (a : Addr) (v : Byte)
  /-- `S1.WR.MODE` (R103) -/
  | s1WrMode (a : Addr) (v : Byte)
  /-- `S1.RD.ROM0` (R104) -/
  | s1RdRom0 (a : Addr)
  /-- `S1.RD.ROMX` (R105) -/
  | s1RdRomx (a : Addr)
  /-- `S1.RD.XRAM` (R107) -/
  | s1RdXram (a : Addr)
  /-- `S1.WR.XRAM` (R108) -/
  | s1WrXram (a : Addr) (v : Byte)
  /-- `S3.WR.EN` (R120) -/
  | s3WrEn (a : Addr) (v : Byte)
  /-- `S3.WR.ROMB` (R121) -/
  | s3WrRomb (a : Addr) (v : Byte)
  /-- `S3.WR.SEL` (R122) -/
  | s3WrSel (a : Addr) (v : Byte)
  /-- `S3.WR.LATCH` (R123) -/
  | s3WrLatch (a : Addr) (v : Byte)
  /-- `S3.RD.ROM0` (R124) -/
  | s3RdRom0 (a : Addr)
  /-- `S3.RD.ROMX` (R125) -/
  | s3RdRomx (a : Addr)
  /-- `S3.RD.X` (R127) -/
  | s3RdX (a : Addr)
  /-- `S3.WR.X` (R128) -/
  | s3WrX (a : Addr) (v : Byte)
  /-- `FWD.8` (R94): the row tests neither `S` nor `W`, so both are operands -/
  | fwd8 (sch : Scheme) (w : Dir) (a : Addr) (v : Byte)
  /-- `FWD.C` (R94) -/
  | fwdC (sch : Scheme) (w : Dir) (a : Addr) (v : Byte)
  /-- `POLL` (R158) -/
  | poll
  /-- `CPU` (R159) -/
  | cpu
  /-- `DISP` (R160) -/
  | disp
  /-- `TMR` (R161) -/
  | tmr
  /-- `YIELD` (R162) -/
  | yield
  /-- `STOPPED` (R163) -/
  | stopped
  deriving DecidableEq, Repr

/-- Is the operation a bus transaction (format `BUS`), not a scheduler phase (format `PHASE`)? -/
def Instr.isBus : Instr → Bool
  | .poll | .cpu | .disp | .tmr | .yield | .stopped => false
  | .nRdRom _ | .nWrRom _ _ | .nRdX _ | .nWrX _ _ => true
  | .s1WrRamen _ _ | .s1WrRomlo _ _ | .s1WrUpper _ _ | .s1WrMode _ _ => true
  | .s1RdRom0 _ | .s1RdRomx _ | .s1RdXram _ | .s1WrXram _ _ => true
  | .s3WrEn _ _ | .s3WrRomb _ _ | .s3WrSel _ _ | .s3WrLatch _ _ => true
  | .s3RdRom0 _ | .s3RdRomx _ | .s3RdX _ | .s3WrX _ _ => true
  | .fwd8 _ _ _ _ | .fwdC _ _ _ _ => true

end Sys2Proof
end

