-- ==== Sys2Proof/Machine/State.lean ====
section
/-! DEFINITION. The state of the block (spec/10_state.md R10), the launch inputs it was started with
(spec/00_scope.md R6, R8), what crosses its ports (R9), and the ways a step can stop. Everything is
plain data. -/

namespace Sys2Proof.Machine

/-! ### Images -/

/-- An image: bytes by flat offset, offsets strictly rising, no entry equal to `unlistedByte`. -/
abbrev Memory := List Host.Cell

/-- What an offset of an image that is not listed reads as. The spec gives no initial contents (R14);
`ROM` and `RAM_INIT` are launch inputs, and any contents are a list of cells over this byte
(log entry 4). -/
def unlistedByte : Byte := 0

/-! ### Launch inputs and parameters -/

/-- The parameters of every step (R11), fixed at session start and changed by no step. They stand in the
state so that a statement about every state holds for every value of them (log entry 1). -/
structure Session where
  /-- `ROM_LEN` (R6) -/
  romLen : Nat
  /-- `ROM[0 .. ROM_LEN-1]` (R6) -/
  rom : Memory
  /-- `RAM_SIZE` (R6) -/
  ramSize : Nat
  /-- `OPEN_BUS` (R8) -/
  openBus : Byte
  /-- `MAIN_CYCLES` (R8) -/
  mainCycles : Nat
  /-- `RTC_TICKS_PER_SECOND` (R8) -/
  rtcTicksPerSecond : Nat
  deriving DecidableEq, Repr

/-- The launch inputs of a session (R6) with its parameters (R8). -/
structure Launch where
  scheme : Scheme
  session : Session
  /-- `RAM_INIT` (R6) -/
  ramInit : Memory
  deriving DecidableEq, Repr

/-! ### Bank-controller registers -/

/-- Scheme1 `mode` (R18): 0 = `rom`, 1 = `ram`. -/
inductive Mode where
  | rom
  | ram
  deriving DecidableEq, Repr

/-- The Scheme1 register group (R15 to R18). `rom_bank` is kept as its two fields (R16). -/
structure Scheme1Regs where
  /-- `ram_enable` (R15) -/
  ramEnable : Bool
  /-- `hi = rom_bank[6:5]` (R16) -/
  romHi : BitVec 2
  /-- `lo = rom_bank[4:0]` (R16) -/
  romLo : BitVec 5
  /-- `ram_bank` (R17) -/
  ramBank : BitVec 2
  /-- `mode` (R18) -/
  mode : Mode
  deriving DecidableEq, Repr

/-- `rom_bank = {hi, lo}` (R16). -/
def Scheme1Regs.romBank (r : Scheme1Regs) : BitVec 7 := r.romHi ++ r.romLo

/-- The names of the RTC registers (R23, R140). -/
inductive RtcReg where
  /-- seconds -/
  | S
  /-- minutes -/
  | M
  /-- hours -/
  | H
  /-- day counter, low 8 bits -/
  | DL
  /-- day counter bit 8, halt, carry -/
  | DH
  deriving DecidableEq, Repr

/-- One RTC register file: five full bytes (R23, R24, R140). -/
structure RtcRegs where
  seconds : Byte
  minutes : Byte
  hours : Byte
  dayLow : Byte
  dayHigh : Byte
  deriving DecidableEq, Repr

/-- `ram_rtc_select` (R21). -/
inductive Select where
  | ramBank (n : BitVec 2)
  | rtc (r : RtcReg)
  | undefined
  deriving DecidableEq, Repr

/-- `latch_state` (R22; spec/90_conflicts.md C3 folds `Armed(1)` into `idle`). -/
inductive Latch where
  | idle
  | armed
  deriving DecidableEq, Repr

/-- The Scheme3 register group (R19 to R26). -/
structure Scheme3Regs where
  /-- `enable` (R19) -/
  enable : Bool
  /-- `rom_bank` (R20) -/
  romBank : BitVec 7
  /-- `ram_rtc_select` (R21) -/
  select : Select
  /-- `latch_state` (R22) -/
  latch : Latch
  /-- `rtc_live` (R23) -/
  live : RtcRegs
  /-- `rtc_snap` (R24) -/
  snap : RtcRegs
  /-- `rtc_sub` (R26) -/
  rtcSub : Nat
  deriving DecidableEq, Repr

/-- The register group of the active scheme: a tagged variant (R10; spec/92_eei_decisions.md D29). The tag
is the one home of `SCHEME`. -/
inductive BankController where
  | noController
  | scheme1 (r : Scheme1Regs)
  | scheme3 (r : Scheme3Regs)
  | unsupported
  deriving DecidableEq, Repr

/-- The scheme whose register group exists. -/
def BankController.scheme : BankController → Scheme
  | .noController => .none
  | .scheme1 _ => .scheme1
  | .scheme3 _ => .scheme3
  | .unsupported => .unsupported

/-! ### Scheduler, errors, ports -/

/-- `phase` (R29). -/
inductive Phase where
  | poll
  | cpu
  | disp
  | tmr
  | yield
  | stopped
  deriving DecidableEq, Repr

/-- The errors of the block (R175). -/
inductive ErrorKind where
  | unsupportedScheme
  | unmappedAddress
  | undefinedRegisterSelect
  | offsetOutOfRange
  deriving DecidableEq, Repr

/-- A record `(code, addr, value, scheme)` (R31, R175). -/
structure ErrorRecord where
  error : ErrorKind
  addr : Addr
  value : Byte
  scheme : Scheme
  deriving DecidableEq, Repr

/-- The outcome of a transaction at the bus port (R9 (a)). -/
inductive BusOutcome where
  | data (b : Byte)
  | ack
  | forward
  | fatal (r : ErrorRecord)
  deriving DecidableEq, Repr

/-- The calls of the scheduler port (R9 (d)) and the output `frame_done`. -/
inductive Call where
  | pollInput
  | cpuAdvance
  | displayAdvance
  | timerAdvance
  | frameDone
  deriving DecidableEq, Repr

/-- What crossed the ports in the last step (R9); the model's own view of the outputs (log entry 2). -/
structure Ports where
  /-- the outcome of the transaction the step resolved, if it resolved one -/
  outcome : Option BusOutcome := none
  /-- the byte the general memory component answered a forwarded read with (R94) -/
  oracle : Option Byte := none
  /-- the diagnostic event of a recoverable condition (R178) -/
  note : Option ErrorRecord := none
  /-- the scheduler-port call that completed in the step, or `frame_done` -/
  call : Option Call := none
  /-- the strobes of the scheduler port raised in the step, in order: a stage's is raised when the sequencer
  enters the stage, and its call lasts until the stage ends -/
  raised : List Call := []
  deriving DecidableEq, Repr

/-- What the external cores do next, in order (log entry 3): a running stage call issues one transaction,
or returns. -/
inductive CoreEvent where
  /-- the running core issues `MemRead(a, 1)` -/
  | read (a : Addr)
  /-- the running core issues `MemWrite(a, 1, v)` -/
  | write (a : Addr) (v : Byte)
  /-- the running stage call returns -/
  | done
  deriving DecidableEq, Repr

/-! ### The state -/

/-- The state: the spec's own tuple (R10), the session's parameters (R11), and the model's own view of
the environment (inputs not yet consumed, outputs of the last step, the count of oracle answers). -/
structure State where
  /-- the parameters of every step (R11) -/
  session : Session
  /-- the active scheme's register group (R10) -/
  bank : BankController
  /-- `RAM[0 .. RAM_SIZE-1]` (R14) -/
  ram : Memory
  /-- `phase` (R29) -/
  phase : Phase
  /-- `cycle_counter` (R28) -/
  cycleCounter : Nat
  /-- `fatal` (R31) -/
  fatal : Option ErrorRecord
  /-- input: what the external cores do next; after the last event every stage call returns at once -/
  events : List CoreEvent
  /-- input: `exit_request` at the coming samples in `YIELD` (R162); after the last it is 0 -/
  exitLevels : List Bool
  /-- output: what crossed the ports in the last step (R9) -/
  ports : Ports
  /-- how many forwarded reads the general memory component has answered: the index of the next free value -/
  oracleCount : Nat
  deriving DecidableEq, Repr

/-- `SCHEME`. -/
def State.scheme (s : State) : Scheme := s.bank.scheme

/-! ### How a step can stop -/

/-- No step of this machine ends in a fault: a fatal error of the block is a next state that holds the
`fatal` record with `phase = STOPPED` (R181). The type has no constructor, which is safe. -/
inductive Fault where
  deriving DecidableEq, Repr

/-- Why a step has no meaning. -/
inductive Refusal where
  /-- An arm of `exec` whose instruction has no meaning yet. No arm raises it. Safe. -/
  | notModelled (mnemonic : String)
  /-- Raised by a bus row of one scheme in a session of another: R70, "`S` is the same in every transaction
  of a session", so no session has such a transaction. `step` never raises it. Safe. -/
  | otherScheme
  /-- Raised by a scheduler phase asked for while `phase` names another one (the "Precondition" lines of
  R158 to R162). `step` never raises it. Safe. -/
  | otherPhase
  /-- Raised by `step` when the word it fetches is no operation: only in a state of an unsupported scheme
  that is not stopped, which no session reaches (R71, R176; spec/93_implementation_defined.md U10). Safe. -/
  | undecodable
  deriving DecidableEq, Repr

/-! ### Reset -/

/-- The Scheme1 registers after session start (R32): `ram_enable` 0, `rom_bank` 1, `ram_bank` 0, `mode` ROM. -/
def Scheme1Regs.reset : Scheme1Regs :=
  { ramEnable := false, romHi := 0, romLo := 1, ramBank := 0, mode := .rom }

/-- An RTC register file after session start (R32): five zeroes. -/
def RtcRegs.reset : RtcRegs :=
  { seconds := 0, minutes := 0, hours := 0, dayLow := 0, dayHigh := 0 }

/-- The Scheme3 registers after session start (R32). -/
def Scheme3Regs.reset : Scheme3Regs :=
  { enable := false, romBank := 1, select := .ramBank 0, latch := .idle,
    live := RtcRegs.reset, snap := RtcRegs.reset, rtcSub := 0 }

/-- The register group session start creates (R200). -/
def BankController.reset : Scheme → BankController
  | .none => .noController
  | .scheme1 => .scheme1 Scheme1Regs.reset
  | .scheme3 => .scheme3 Scheme3Regs.reset
  | .unsupported => .unsupported

/-- The launch of `State.reset` (log entry 5): Scheme None, one ROM bank with nothing listed, no external
RAM, and each parameter at the default R8 gives it; `MAIN_CYCLES`, which has none, stays open. -/
def Launch.plain : Launch :=
  { scheme := .none
    session :=
      { romLen := Config.romBankBytes
        rom := []
        ramSize := 0
        openBus := Config.defaultOpenBus
        mainCycles := Config.mainCyclesLessOne + 1
        rtcTicksPerSecond := Config.defaultClockHz }
    ramInit := [] }

/-- The machine right after the session start of `Launch.plain` (R32, R200). `sessionStart` in
Machine/Ops.lean is the session start of any launch. -/
def State.reset : State :=
  { session := Launch.plain.session
    bank := .noController
    ram := []
    phase := .poll
    cycleCounter := 0
    fatal := none
    events := []
    exitLevels := []
    ports := {}
    oracleCount := 0 }

end Sys2Proof.Machine
end

