-- ==== Sys2Proof/Machine/Flags.lean ====
section
/-! DEFINITION. The one-bit fields of the block (R30): how a written byte sets the enable flags and the
mode, and the three fields of the RTC flags byte `DH` (R25). -/

namespace Sys2Proof.Machine

/-- The enable written by `v`: 1 iff `v[3:0] == 0xA` (R100, R120). -/
def enableOf (v : Byte) : Bool := v.extractLsb 3 0 == 0xA#4

/-- The mode written by `v`: `v[0]`, 0 = ROM, 1 = RAM (R103). -/
def modeOf (v : Byte) : Mode := if v.getLsbD 0 then .ram else .rom

/-- The halt flag, `DH[6]` (R25). -/
def RtcRegs.halt (r : RtcRegs) : Bool := r.dayHigh.getLsbD 6

/-- The day counter `{DH[0], DL}`, 0..511 (R140). -/
def RtcRegs.day (r : RtcRegs) : Nat := (r.dayHigh.extractLsb 0 0).toNat * 256 + r.dayLow.toNat

/-- `DH` with bit 0 replaced (R145: `rtc_live[DH][0] <- day[8]`). -/
def setDayBit8 (dh : Byte) (b : Bool) : Byte := (dh &&& 0xFE) ||| (if b then 1 else 0)

/-- `DH` with the sticky carry flag, bit 7, set (R145). -/
def setCarry (dh : Byte) : Byte := dh ||| 0x80

end Sys2Proof.Machine
end

