-- ==== Sys2Proof/Decode.lean ====
section
/-! DEFINITION. The transaction word (R70), the decode map (R76), the decoder (R75, R79) and the
encoder. The decoder is total: every word is an operation or is rejected under a name. -/

namespace Sys2Proof

/-- A word the block decodes: a transaction word `T` (format `BUS`, R70) or a phase code (format
`PHASE`, R79). -/
inductive OpWord where
  | bus (t : BusWord)
  | phase (c : PhaseCode)
  deriving DecidableEq, Repr

/-- Why a word is no operation. -/
inductive DecodeError where
  /-- the scheme tag `10` (R71, R77): "never decoded" -/
  | reservedScheme
  /-- no row of the decode map matches; R75 says this does not happen -/
  | noRow
  /-- phase codes 110 and 111 (R79): "unused and no state holds them" -/
  | unusedPhaseCode
  /-- a bit is set above the 27 bits of `T` or the 3 bits of a phase code -/
  | tooWide
  deriving DecidableEq, Repr

/-! ### The fields of `T` (R70) -/

/-- The scheme tag `S` of a scheme. -/
def Scheme.tag : Scheme → BitVec 2
  | .none => 0b00
  | .scheme1 => 0b01
  | .scheme3 => 0b11
  | .unsupported => 0b10

/-- The scheme a tag stands for. -/
def Scheme.ofTag (t : BitVec 2) : Scheme :=
  if t = 0b00 then .none else if t = 0b01 then .scheme1 else if t = 0b11 then .scheme3 else .unsupported

/-- The direction bit `W`: 0 = read, 1 = write. -/
def Dir.bit : Dir → BitVec 1
  | .read => 0
  | .write => 1

/-- The direction a bit `W` stands for. -/
def Dir.ofBit (b : BitVec 1) : Dir := if b = 1 then .write else .read

/-- `T = {S, W, A, D}` (R70). -/
def transaction (sch : Scheme) (w : Dir) (a : Addr) (d : Byte) : BusWord :=
  sch.tag ++ w.bit ++ a ++ d

/-- `S = T[26:25]`. -/
def fieldS (t : BusWord) : BitVec 2 := t.extractLsb 26 25

/-- `W = T[24]`. -/
def fieldW (t : BusWord) : BitVec 1 := t.extractLsb 24 24

/-- `A = T[23:8]`. -/
def fieldA (t : BusWord) : Addr := t.extractLsb 23 8

/-- `D = T[7:0]`. -/
def fieldD (t : BusWord) : Byte := t.extractLsb 7 0

/-! ### The decode map (R76) -/

/-- The rows of the decode map, in the spec's order. -/
inductive BusRow where
  | nRdRom | nWrRom | nRdX | nWrX
  | s1WrRamen | s1WrRomlo | s1WrUpper | s1WrMode | s1RdRom0 | s1RdRomx | s1RdXram | s1WrXram
  | s3WrEn | s3WrRomb | s3WrSel | s3WrLatch | s3RdRom0 | s3RdRomx | s3RdX | s3WrX
  | fwd8 | fwdC
  deriving DecidableEq, Repr

/-- All rows. -/
def BusRow.all : List BusRow :=
  [.nRdRom, .nWrRom, .nRdX, .nWrX] ++
  [.s1WrRamen, .s1WrRomlo, .s1WrUpper, .s1WrMode, .s1RdRom0, .s1RdRomx, .s1RdXram, .s1WrXram] ++
  [.s3WrEn, .s3WrRomb, .s3WrSel, .s3WrLatch, .s3RdRom0, .s3RdRomx, .s3RdX, .s3WrX] ++
  [.fwd8, .fwdC]

/-- The columns `match` and `mask` of a row. -/
def BusRow.pattern : BusRow → BusWord × BusWord
  | .nRdRom => (0x0000000, 0x7800000)
  | .nWrRom => (0x1000000, 0x7800000)
  | .nRdX => (0x0A00000, 0x7E00000)
  | .nWrX => (0x1A00000, 0x7E00000)
  | .s1WrRamen => (0x3000000, 0x7E00000)
  | .s1WrRomlo => (0x3200000, 0x7E00000)
  | .s1WrUpper => (0x3400000, 0x7E00000)
  | .s1WrMode => (0x3600000, 0x7E00000)
  | .s1RdRom0 => (0x2000000, 0x7C00000)
  | .s1RdRomx => (0x2400000, 0x7C00000)
  | .s1RdXram => (0x2A00000, 0x7E00000)
  | .s1WrXram => (0x3A00000, 0x7E00000)
  | .s3WrEn => (0x7000000, 0x7E00000)
  | .s3WrRomb => (0x7200000, 0x7E00000)
  | .s3WrSel => (0x7400000, 0x7E00000)
  | .s3WrLatch => (0x7600000, 0x7E00000)
  | .s3RdRom0 => (0x6000000, 0x7C00000)
  | .s3RdRomx => (0x6400000, 0x7C00000)
  | .s3RdX => (0x6A00000, 0x7E00000)
  | .s3WrX => (0x7A00000, 0x7E00000)
  | .fwd8 => (0x0800000, 0x0E00000)
  | .fwdC => (0x0C00000, 0x0C00000)

/-- `T & mask == match` (R75). -/
def BusRow.hits (r : BusRow) (t : BusWord) : Bool := t &&& r.pattern.2 == r.pattern.1

/-- The row that matches `T`. -/
def rowOf (t : BusWord) : Option BusRow := BusRow.all.find? (·.hits t)

/-- The data operand of a forwarded transaction: a read has none, and the 0 of R70 stands for it. -/
def forwardData (w : Dir) (d : Byte) : Byte :=
  match w with
  | .read => 0
  | .write => d

/-- The operation a row makes of `T`: the row with the operands `A` and `D`. -/
def BusRow.instr (t : BusWord) : BusRow → Instr
  | .nRdRom => .nRdRom (fieldA t)
  | .nWrRom => .nWrRom (fieldA t) (fieldD t)
  | .nRdX => .nRdX (fieldA t)
  | .nWrX => .nWrX (fieldA t) (fieldD t)
  | .s1WrRamen => .s1WrRamen (fieldA t) (fieldD t)
  | .s1WrRomlo => .s1WrRomlo (fieldA t) (fieldD t)
  | .s1WrUpper => .s1WrUpper (fieldA t) (fieldD t)
  | .s1WrMode => .s1WrMode (fieldA t) (fieldD t)
  | .s1RdRom0 => .s1RdRom0 (fieldA t)
  | .s1RdRomx => .s1RdRomx (fieldA t)
  | .s1RdXram => .s1RdXram (fieldA t)
  | .s1WrXram => .s1WrXram (fieldA t) (fieldD t)
  | .s3WrEn => .s3WrEn (fieldA t) (fieldD t)
  | .s3WrRomb => .s3WrRomb (fieldA t) (fieldD t)
  | .s3WrSel => .s3WrSel (fieldA t) (fieldD t)
  | .s3WrLatch => .s3WrLatch (fieldA t) (fieldD t)
  | .s3RdRom0 => .s3RdRom0 (fieldA t)
  | .s3RdRomx => .s3RdRomx (fieldA t)
  | .s3RdX => .s3RdX (fieldA t)
  | .s3WrX => .s3WrX (fieldA t) (fieldD t)
  | .fwd8 =>
    .fwd8 (Scheme.ofTag (fieldS t)) (Dir.ofBit (fieldW t)) (fieldA t)
      (forwardData (Dir.ofBit (fieldW t)) (fieldD t))
  | .fwdC =>
    .fwdC (Scheme.ofTag (fieldS t)) (Dir.ofBit (fieldW t)) (fieldA t)
      (forwardData (Dir.ofBit (fieldW t)) (fieldD t))

/-! ### The decoder -/

/-- A transaction word: the reserved tag is rejected first (R71: "No transaction with `S = 10` is ever
decoded"), then the matching row decides (R75). -/
def decodeBus (t : BusWord) : Except DecodeError Instr :=
  if fieldS t = 0b10 then .error .reservedScheme
  else
    match rowOf t with
    | none => .error .noRow
    | some r => .ok (r.instr t)

/-- A phase code (R79). -/
def decodePhase (c : PhaseCode) : Except DecodeError Instr :=
  if c = 0b000 then .ok .poll
  else if c = 0b001 then .ok .cpu
  else if c = 0b010 then .ok .disp
  else if c = 0b011 then .ok .tmr
  else if c = 0b100 then .ok .yield
  else if c = 0b101 then .ok .stopped
  else .error .unusedPhaseCode

/-- The decoder. -/
def decode : OpWord → Except DecodeError Instr
  | .bus t => decodeBus t
  | .phase c => decodePhase c

/-- The word given as `nbits` bits of a number: up to one byte is a phase code (3 bits), more is a
transaction word (27 bits); a bit above the format's width is rejected. -/
def OpWord.ofBits (nbits w : Nat) : Except DecodeError OpWord :=
  if nbits ≤ 8 then
    if w < 8 then .ok (.phase (BitVec.ofNat 3 w)) else .error .tooWide
  else
    if w < 134217728 then .ok (.bus (BitVec.ofNat 27 w)) else .error .tooWide

/-- What the decoder reads from a row of spec/opcode_table.json (the host's name for it). -/
def decodeTableWord (nbits w : Nat) : Option Instr :=
  match OpWord.ofBits nbits w with
  | .error _ => none
  | .ok o =>
    match decode o with
    | .ok i => some i
    | .error _ => none

/-! ### The encoder -/

/-- The word of an operation, field by field from R70 and R79. -/
def encode : Instr → OpWord
  | .nRdRom a => .bus (transaction .none .read a 0)
  | .nWrRom a v => .bus (transaction .none .write a v)
  | .nRdX a => .bus (transaction .none .read a 0)
  | .nWrX a v => .bus (transaction .none .write a v)
  | .s1WrRamen a v => .bus (transaction .scheme1 .write a v)
  | .s1WrRomlo a v => .bus (transaction .scheme1 .write a v)
  | .s1WrUpper a v => .bus (transaction .scheme1 .write a v)
  | .s1WrMode a v => .bus (transaction .scheme1 .write a v)
  | .s1RdRom0 a => .bus (transaction .scheme1 .read a 0)
  | .s1RdRomx a => .bus (transaction .scheme1 .read a 0)
  | .s1RdXram a => .bus (transaction .scheme1 .read a 0)
  | .s1WrXram a v => .bus (transaction .scheme1 .write a v)
  | .s3WrEn a v => .bus (transaction .scheme3 .write a v)
  | .s3WrRomb a v => .bus (transaction .scheme3 .write a v)
  | .s3WrSel a v => .bus (transaction .scheme3 .write a v)
  | .s3WrLatch a v => .bus (transaction .scheme3 .write a v)
  | .s3RdRom0 a => .bus (transaction .scheme3 .read a 0)
  | .s3RdRomx a => .bus (transaction .scheme3 .read a 0)
  | .s3RdX a => .bus (transaction .scheme3 .read a 0)
  | .s3WrX a v => .bus (transaction .scheme3 .write a v)
  | .fwd8 sch w a v => .bus (transaction sch w a v)
  | .fwdC sch w a v => .bus (transaction sch w a v)
  | .poll => .phase 0b000
  | .cpu => .phase 0b001
  | .disp => .phase 0b010
  | .tmr => .phase 0b011
  | .yield => .phase 0b100
  | .stopped => .phase 0b101

end Sys2Proof
end

