-- ==== Sys2Proof/Machine/Operands.lean ====
section
/-! DEFINITION. The operand forms (R73): the offset of an address in its window, the fields of a written
byte; and bank translation (R50 to R57), the flat offset a bus address becomes. -/

namespace Sys2Proof.Machine

/-! ### Operands of the address -/

/-- The offset in a ROM window, `A[13:0]` (R47). -/
def romWindowOffset (a : Addr) : Nat := (a.extractLsb 13 0).toNat

/-- The offset in the external window, `A[12:0]` (R47). -/
def extWindowOffset (a : Addr) : Nat := (a.extractLsb 12 0).toNat

/-! ### Operands of the written byte -/

/-- "coerce 0→1": `max(x, 1)` on the bits of a bank field (R101, R121). -/
def atLeastOne {n : Nat} (x : BitVec n) : BitVec n := if x = 0 then 1 else x

/-- The low ROM bank field, `max(v[4:0], 1)` (R101). -/
def lowBankOf (v : Byte) : BitVec 5 := atLeastOne (v.extractLsb 4 0)

/-- The two bits of an upper write, `v[1:0]` (R102). -/
def upperOf (v : Byte) : BitVec 2 := v.extractLsb 1 0

/-- The Scheme3 ROM bank, `max(v[6:0], 1)` (R121). -/
def bank7Of (v : Byte) : BitVec 7 := atLeastOne (v.extractLsb 6 0)

/-- The selection of a written byte; the whole byte is compared (R122). -/
def selectOf (v : Byte) : Select :=
  if v.toNat ≤ 3 then .ramBank (v.extractLsb 1 0)
  else if v = 0x08 then .rtc .S
  else if v = 0x09 then .rtc .M
  else if v = 0x0A then .rtc .H
  else if v = 0x0B then .rtc .DL
  else if v = 0x0C then .rtc .DH
  else .undefined

/-! ### Bank translation -/

/-- "(bank index × 16384) + offset" (R50). -/
def romOffset (bank : Nat) (a : Addr) : Nat := bank * Config.romBankBytes + romWindowOffset a

/-- "bank * 8192 + offset" (R50). -/
def ramOffset (bank : Nat) (a : Addr) : Nat := bank * Config.ramBankBytes + extWindowOffset a

/-- The effective ROM bank of Scheme1 (R52): all 7 bits in `ROM` mode, `lo` alone in `RAM` mode. -/
def Scheme1Regs.effRomBank (r : Scheme1Regs) : Nat :=
  match r.mode with
  | .rom => r.romBank.toNat
  | .ram => r.romLo.toNat

/-- The Scheme1 external-window gate (R106). -/
def Scheme1Regs.windowOpen (r : Scheme1Regs) : Bool := r.ramEnable && r.mode == .ram

/-! ### RTC registers by name -/

/-- `x[r]` of an RTC register file. -/
def RtcRegs.get (x : RtcRegs) : RtcReg → Byte
  | .S => x.seconds
  | .M => x.minutes
  | .H => x.hours
  | .DL => x.dayLow
  | .DH => x.dayHigh

/-- `x[r] <- v` on an RTC register file: all 8 bits (R146). -/
def RtcRegs.set (x : RtcRegs) (r : RtcReg) (v : Byte) : RtcRegs :=
  match r with
  | .S => { x with seconds := v }
  | .M => { x with minutes := v }
  | .H => { x with hours := v }
  | .DL => { x with dayLow := v }
  | .DH => { x with dayHigh := v }

end Sys2Proof.Machine
end

