-- ==== Sys2Proof/Machine/Ops.lean ====
section
/-! DEFINITION. The shared operations: images, outcomes, fatal entry (R181), the order of the checks
(R184), session start (R200), and fetching the next word. -/

namespace Sys2Proof.Machine

/-! ### Images -/

/-- The byte at an offset. -/
def Memory.read : Memory → Nat → Byte
  | [], _ => unlistedByte
  | c :: rest, a => if c.1 = a then c.2 else Memory.read rest a

/-- A cell in front of a tail, left out where the byte is what an unlisted offset reads as. -/
def Memory.put (a : Nat) (b : Byte) (rest : Memory) : Memory :=
  if b = unlistedByte then rest else (a, b) :: rest

/-- The image with one byte replaced, in canonical form again. -/
def Memory.write : Memory → Nat → Byte → Memory
  | [], a, b => Memory.put a b []
  | c :: rest, a, b =>
    if a < c.1 then Memory.put a b (c :: rest)
    else if a = c.1 then Memory.put a b rest
    else c :: Memory.write rest a b

/-- The canonical form: offsets strictly rising, no entry equal to what an unlisted offset reads as. -/
abbrev Memory.wf (m : Memory) : Prop :=
  m.Pairwise (fun c d => c.1 < d.1) ∧ ∀ c ∈ m, c.2 ≠ unlistedByte

/-- Every listed offset lies in an image of `size` bytes. -/
abbrev Memory.fits (m : Memory) (size : Nat) : Prop := ∀ c ∈ m, c.1 < size

/-! ### Outcomes -/

/-- The result type of every meaning. -/
abbrev Result := Host.Outcome State Fault Refusal

/-- `return Data(b)`, `return Ack`, `return Forward`: the outcome is shown at the bus port. -/
def State.answer (s : State) (o : BusOutcome) : State := { s with ports := { outcome := some o } }

/-- Nothing crosses a port: a refused transaction has "no outcome, no state change" (R183). -/
def State.silent (s : State) : State := { s with ports := {} }

/-- The register group replaced. -/
def State.setBank (s : State) (b : BankController) : State := { s with bank := b }

/-- `RAM[off] <- v`. -/
def State.storeRam (s : State) (off : Nat) (v : Byte) : State := { s with ram := s.ram.write off v }

/-- The numeric code of an error (R175). -/
def ErrorKind.code : ErrorKind → Nat
  | .unsupportedScheme => 1
  | .unmappedAddress => 2
  | .undefinedRegisterSelect => 3
  | .offsetOutOfRange => 4

/-- TAKING A FATAL ERROR (R181): the record is set, the sequencer stops, "and nothing else changes". The
record carries address, value (0x00 for a read) and active scheme. There is no return from it (R183);
the one way out is `sessionStart`. -/
def fatalEntry (e : ErrorKind) (a : Addr) (v : Byte) (s : State) : State :=
  let r : ErrorRecord := { error := e, addr := a, value := v, scheme := s.scheme }
  { s with fatal := some r, phase := .stopped, ports := { outcome := some (.fatal r) } }

/-- A recoverable condition absorbed where it is detected (R178, R182): the ordinary outcome, with the
optional diagnostic event beside it. -/
def recoverableEntry (e : ErrorKind) (a : Addr) (v : Byte) (o : BusOutcome) (s : State) : State :=
  { s with ports := { outcome := some o, note := some { error := e, addr := a, value := v, scheme := s.scheme } } }

/-- R183, R184 (1): while a `fatal` record is present the transaction is refused and nothing happens. -/
def unlessFatal (s : State) (k : Result) : Result :=
  match s.fatal with
  | some _ => .next s.silent
  | none => k

/-- A row of Scheme None. -/
def onNone (s : State) (k : Result) : Result :=
  match s.bank with
  | .noController => k
  | .scheme1 _ => .refused .otherScheme
  | .scheme3 _ => .refused .otherScheme
  | .unsupported => .refused .otherScheme

/-- A row of Scheme1, with its register group. -/
def onScheme1 (s : State) (k : Scheme1Regs → Result) : Result :=
  match s.bank with
  | .scheme1 r => k r
  | .noController => .refused .otherScheme
  | .scheme3 _ => .refused .otherScheme
  | .unsupported => .refused .otherScheme

/-- A row of Scheme3, with its register group. -/
def onScheme3 (s : State) (k : Scheme3Regs → Result) : Result :=
  match s.bank with
  | .scheme3 r => k r
  | .noController => .refused .otherScheme
  | .scheme1 _ => .refused .otherScheme
  | .unsupported => .refused .otherScheme

/-! ### Accesses of the images, with the bounds check of R62 -/

/-- `return Data(RomRead(off))` for a read at bus address `a`. -/
def readRom (off : Nat) (a : Addr) (s : State) : Result :=
  if off < s.session.romLen then .next (s.answer (.data (s.session.rom.read off)))
  else .next (fatalEntry .offsetOutOfRange a 0 s)

/-- `return Data(RamRead(off))` for a read at bus address `a`. -/
def readRam (off : Nat) (a : Addr) (s : State) : Result :=
  if off < s.session.ramSize then .next (s.answer (.data (s.ram.read off)))
  else .next (fatalEntry .offsetOutOfRange a 0 s)

/-- `RamWrite(off, v) ; return Ack` for a write at bus address `a`. -/
def writeRam (off : Nat) (a : Addr) (v : Byte) (s : State) : Result :=
  if off < s.session.ramSize then .next ((s.storeRam off v).answer .ack)
  else .next (fatalEntry .offsetOutOfRange a v s)

/-- An open-bus read (R55, R56): `return Data(OPEN_BUS)`. -/
def readOpenBus (s : State) : Result := .next (s.answer (.data s.session.openBus))

/-- An ignored write: `return Ack`, no state change. -/
def ignoreWrite (s : State) : Result := .next (s.answer .ack)

/-- `return Forward` (R94). The general memory component answers a read with a free byte; a write brings
no byte back. -/
def forward (w : Dir) (s : State) : State :=
  match w with
  | .read =>
    { s with
      ports := { outcome := some .forward, oracle := some (Config.generalMemoryByte s.oracleCount) }
      oracleCount := s.oracleCount + 1 }
  | .write => s.answer .forward

/-! ### Session start (R200, R201) -/

/-- The premises of a launch: R6, R8, R200 (`ROM_LEN mod 16384 == 0`), R202, with both images in
canonical form and inside their lengths. -/
abbrev Launch.valid (l : Launch) : Prop :=
  l.session.romLen % Config.romBankBytes = 0 ∧ l.session.ramSize ∈ Config.legalRamSizes ∧
  1 ≤ l.session.mainCycles ∧ 1 ≤ l.session.rtcTicksPerSecond ∧
  l.session.rom.wf ∧ l.session.rom.fits l.session.romLen ∧
  l.ramInit.wf ∧ l.ramInit.fits l.session.ramSize

/-- The error present from the start: `UnsupportedScheme` (R176). -/
def startError (sch : Scheme) : Option ErrorRecord :=
  match sch with
  | .unsupported => some { error := .unsupportedScheme, addr := 0, value := 0, scheme := .unsupported }
  | .none => none
  | .scheme1 => none
  | .scheme3 => none

/-- The phase session start enters (R200). -/
def startPhase (sch : Scheme) : Phase :=
  match sch with
  | .unsupported => .stopped
  | .none => .poll
  | .scheme1 => .poll
  | .scheme3 => .poll

/-- The state session start builds. -/
def startState (l : Launch) : State :=
  { session := l.session
    bank := BankController.reset l.scheme
    ram := l.ramInit
    phase := startPhase l.scheme
    cycleCounter := 0
    fatal := startError l.scheme
    events := []
    exitLevels := []
    ports := {}
    oracleCount := 0 }

/-- Session start (R200): all state is rebuilt from the launch inputs. A launch that breaks the premises
has no meaning (R202). -/
def sessionStart (l : Launch) : Option State := if l.valid then some (startState l) else none

/-- The frame budget (R156): `(CLOCK_HZ div 1000) * FRAME_TIME_MS`. -/
def frameBudget (clockHz frameTimeMs : Nat) : Nat := clockHz / 1000 * frameTimeMs

/-! ### What the block does next -/

/-- The phase code of a phase (R79). -/
def Phase.code : Phase → PhaseCode
  | .poll => 0b000
  | .cpu => 0b001
  | .disp => 0b010
  | .tmr => 0b011
  | .yield => 0b100
  | .stopped => 0b101

/-- Is the phase one of the three stages of a tick? Only there are transactions issued (R165). -/
def Phase.isStage : Phase → Bool
  | .cpu | .disp | .tmr => true
  | .poll | .yield | .stopped => false

/-- The word of a stage whose core does `evs` next: its next transaction under the session's scheme, or,
when the call returns, the phase itself. -/
def stageWord (p : Phase) (sch : Scheme) (evs : List CoreEvent) : OpWord :=
  match evs with
  | .read a :: _ => .bus (transaction sch .read a 0)
  | .write a v :: _ => .bus (transaction sch .write a v)
  | .done :: _ => .phase p.code
  | [] => .phase p.code

/-- The next word: in a stage the running core's next transaction, else the phase. -/
def fetchWord (s : State) : OpWord :=
  if s.phase.isStage then stageWord s.phase s.scheme s.events else .phase s.phase.code

/-- The state once the word is taken: in a stage the event is consumed. -/
def consume (s : State) : State :=
  if s.phase.isStage then { s with events := s.events.tail } else s

/-! ### Placing a word where the next step takes it (the host's withFetchWord) -/

/-- The event that makes a running core issue transaction `t`. -/
def eventOf (t : BusWord) : CoreEvent :=
  match Dir.ofBit (fieldW t) with
  | .read => .read (fieldA t)
  | .write => .write (fieldA t) (fieldD t)

/-- A session of the scheme of `t`: as it is where the scheme is that already, else newly started
registers. -/
def bankFor (sch : Scheme) (b : BankController) : BankController :=
  if b.scheme = sch then b else BankController.reset sch

/-- The running CPU core issues `t` next. -/
def placeBus (t : BusWord) (s : State) : State :=
  { s with
    bank := bankFor (Scheme.ofTag (fieldS t)) s.bank
    phase := .cpu
    fatal := none
    events := eventOf t :: s.events }

/-- The scheduler stands in phase `p`, and a stage's call returns next. -/
def placePhase (p : Phase) (s : State) : State :=
  match p with
  | .poll => { s with phase := .poll, fatal := none }
  | .cpu => { s with phase := .cpu, fatal := none, events := .done :: s.events }
  | .disp => { s with phase := .disp, fatal := none, events := .done :: s.events }
  | .tmr => { s with phase := .tmr, fatal := none, events := .done :: s.events }
  | .yield => { s with phase := .yield, fatal := none, cycleCounter := s.session.mainCycles }
  | .stopped => { s with phase := .stopped }

/-- The phase of a phase code; codes 110 and 111 belong to none (R79). -/
def phaseOfCode (c : PhaseCode) : Option Phase :=
  if c = 0b000 then some .poll
  else if c = 0b001 then some .cpu
  else if c = 0b010 then some .disp
  else if c = 0b011 then some .tmr
  else if c = 0b100 then some .yield
  else if c = 0b101 then some .stopped
  else none

/-- The state in which the next step takes word `o`. A phase code that no state holds changes nothing. -/
def placeWord (o : OpWord) (s : State) : State :=
  match o with
  | .bus t => placeBus t s
  | .phase c =>
    match phaseOfCode c with
    | some p => placePhase p s
    | none => s

end Sys2Proof.Machine
end

