-- ==== Sys2Proof/Machine/Rtc.lean ====
section
/-! DEFINITION. The Scheme3 real-time clock (spec/43_rtc.md): the latch copy, the tick prescaler, the
second advance. -/

namespace Sys2Proof.Machine

/-- The latch copy (R143): all five registers at once; the live counters are not changed. -/
def Scheme3Regs.latchCopy (r : Scheme3Regs) : Scheme3Regs := { r with snap := r.live }

/-- The day step of the second advance (R145): 9-bit day counter, sticky carry on its overflow. -/
def advanceDay (x : RtcRegs) : RtcRegs :=
  let day := x.day + 1
  if day = 512 then
    { x with dayLow := 0, dayHigh := setDayBit8 (setCarry x.dayHigh) false }
  else
    { x with dayLow := BitVec.ofNat 8 day, dayHigh := setDayBit8 x.dayHigh (256 ≤ day) }

/-- The hour step (R145): carries on equality with 24. -/
def advanceHour (x : RtcRegs) : RtcRegs :=
  if x.hours + 1 = 24 then advanceDay { x with hours := 0 } else { x with hours := x.hours + 1 }

/-- The minute step (R145): carries on equality with 60. -/
def advanceMinute (x : RtcRegs) : RtcRegs :=
  if x.minutes + 1 = 60 then advanceHour { x with minutes := 0 } else { x with minutes := x.minutes + 1 }

/-- The second advance (R145): bytes wrap modulo 256, carries are equalities. -/
def secondAdvance (x : RtcRegs) : RtcRegs :=
  if x.seconds + 1 = 60 then advanceMinute { x with seconds := 0 } else { x with seconds := x.seconds + 1 }

/-- The tick prescaler (R144), with `RTC_TICKS_PER_SECOND = n`. -/
def rtcTick (n : Nat) (r : Scheme3Regs) : Scheme3Regs :=
  if r.live.halt then r
  else if r.rtcSub + 1 = n then { r with rtcSub := 0, live := secondAdvance r.live }
  else { r with rtcSub := r.rtcSub + 1 }

/-- `RtcTick()` of the scheduler (R161): only under Scheme3. -/
def State.rtcTick (s : State) : State :=
  match s.bank with
  | .scheme3 r => s.setBank (.scheme3 (Sys2Proof.Machine.rtcTick s.session.rtcTicksPerSecond r))
  | .noController => s
  | .scheme1 _ => s
  | .unsupported => s

end Sys2Proof.Machine
end

