-- ==== Sys2Proof/Machine/Scheduler.lean ====
section
/-! DEFINITION. The phases of the cycle scheduler (spec/44_scheduler.md R158 to R163). The transactions a
core issues during its stage call are steps of their own; `CPU`, `DISP` and `TMR` are the return of
that call and what follows it (log entry 3). -/

namespace Sys2Proof.Machine

/-- The precondition `phase = p` of a phase rule. -/
def inPhase (p : Phase) (s : State) (k : Result) : Result :=
  if s.phase = p then k else .refused .otherPhase

/-- The strobe raised on entering a phase (R9 (d)): a stage's call begins with the stage. `POLL` raises its own
strobe when it runs, since its call begins and completes in that one step. -/
def Phase.strobe : Phase → List Call
  | .cpu => [.cpuAdvance]
  | .disp => [.displayAdvance]
  | .tmr => [.timerAdvance]
  | .poll | .yield | .stopped => []

/-- A call of the scheduler port completes and the sequencer moves on, raising the strobe of the stage it
enters: "each raised and completed before the next is raised" (R9 (d)). -/
def State.sequence (s : State) (c : Call) (p : Phase) : State :=
  { s with phase := p, ports := { call := some c, raised := p.strobe } }

/-- Where a stage goes: `if fatal is present then STOPPED else p` (R159, R160, R161). -/
def State.stageNext (s : State) (p : Phase) : Phase :=
  match s.fatal with
  | some _ => .stopped
  | none => p

/-- The frame begins (R158): `poll_input` is called and has returned, the cycle counter is cleared, and the
first stage is entered. -/
def State.frameStart (s : State) : State :=
  { s.sequence .pollInput .cpu with
    cycleCounter := 0
    ports := { call := some .pollInput, raised := .pollInput :: Phase.cpu.strobe } }

/-- `POLL` (R158). The set of pressed-button events is not kept. -/
def execPoll (s : State) : Result :=
  inPhase .poll s <| unlessFatal s <| .next s.frameStart

/-- `CPU` (R159): `cpu_advance_one_step` has returned. -/
def execCpu (s : State) : Result :=
  inPhase .cpu s <| .next (s.sequence .cpuAdvance (s.stageNext .disp))

/-- `DISP` (R160): `display_advance_one_step` has returned. -/
def execDisp (s : State) : Result :=
  inPhase .disp s <| .next (s.sequence .displayAdvance (s.stageNext .tmr))

/-- The end of a tick (R161): the RTC prescaler, the cycle counter, and the next phase. -/
def State.tickEnd (s : State) : State :=
  let n := s.cycleCounter + 1
  { s.rtcTick.sequence .timerAdvance (if n = s.session.mainCycles then .yield else .cpu) with cycleCounter := n }

/-- `TMR` (R161): `timer_advance_one_step` has returned. -/
def execTmr (s : State) : Result :=
  inPhase .tmr s <|
    match s.fatal with
    | some _ => .next (s.sequence .timerAdvance .stopped)
    | none => .next s.tickEnd

/-- `exit_request` as the block samples it now (R162). -/
def State.exitRequest (s : State) : Bool := s.exitLevels.headD false

/-- `YIELD` (R162): `frame_done`, then the one sample of `exit_request`. -/
def execYield (s : State) : Result :=
  inPhase .yield s <| unlessFatal s <| .next
    { s.sequence .frameDone (if s.exitRequest then .stopped else .poll) with exitLevels := s.exitLevels.tail }

/-- `STOPPED` (R163): no call is made and no state changes. -/
def execStopped (s : State) : Result :=
  inPhase .stopped s <| .next s.silent

end Sys2Proof.Machine
end

