-- ==== Sys2Proof/Machine/SchemeNone.lean ====
section
/-! DEFINITION. The rows of Scheme None (spec/40_scheme_none.md R90 to R93) and the forwarded
transactions of every scheme (R94). -/

namespace Sys2Proof.Machine

/-- `N.RD.ROM` (R90): the ROM byte at the literal address. -/
def execNRdRom (a : Addr) (s : State) : Result :=
  unlessFatal s <| onNone s <| readRom a.toNat a s

/-- `N.WR.ROM` (R91): discarded, before any offset is formed. -/
def execNWrRom (_a : Addr) (_v : Byte) (s : State) : Result :=
  unlessFatal s <| onNone s <| ignoreWrite s

/-- `N.RD.X` (R92): `raise UnmappedAddress(A, 0)`. -/
def execNRdX (a : Addr) (s : State) : Result :=
  unlessFatal s <| onNone s <| .next (fatalEntry .unmappedAddress a 0 s)

/-- `N.WR.X` (R93): `raise UnmappedAddress(A, v)`. -/
def execNWrX (a : Addr) (v : Byte) (s : State) : Result :=
  unlessFatal s <| onNone s <| .next (fatalEntry .unmappedAddress a v s)

/-- `FWD.8` (R94), under any scheme. -/
def execFwd8 (_sch : Scheme) (w : Dir) (_a : Addr) (_v : Byte) (s : State) : Result :=
  unlessFatal s <| .next (forward w s)

/-- `FWD.C` (R94), under any scheme. -/
def execFwdC (_sch : Scheme) (w : Dir) (_a : Addr) (_v : Byte) (s : State) : Result :=
  unlessFatal s <| .next (forward w s)

end Sys2Proof.Machine
end

