-- ==== Sys2Proof/Machine/SchemeOne.lean ====
section
/-! DEFINITION. The rows of Scheme1 (spec/41_scheme1.md R100 to R108). -/

namespace Sys2Proof.Machine

/-- A control-range write of Scheme1: registers replaced, `Ack`. -/
def writeScheme1 (s : State) (f : Scheme1Regs → Scheme1Regs) : Result :=
  unlessFatal s <| onScheme1 s fun r => .next ((s.setBank (.scheme1 (f r))).answer .ack)

/-- `S1.WR.RAMEN` (R100). -/
def execS1WrRamen (_a : Addr) (v : Byte) (s : State) : Result :=
  writeScheme1 s fun r => { r with ramEnable := enableOf v }

/-- `S1.WR.ROMLO` (R101). -/
def execS1WrRomlo (_a : Addr) (v : Byte) (s : State) : Result :=
  writeScheme1 s fun r => { r with romLo := lowBankOf v }

/-- The destination of an upper write, chosen by `mode` as it is when the write arrives (R102). -/
def Scheme1Regs.setUpper (r : Scheme1Regs) (x : BitVec 2) : Scheme1Regs :=
  match r.mode with
  | .rom => { r with romHi := x }
  | .ram => { r with ramBank := x }

/-- `S1.WR.UPPER` (R102). -/
def execS1WrUpper (_a : Addr) (v : Byte) (s : State) : Result :=
  writeScheme1 s fun r => r.setUpper (upperOf v)

/-- `S1.WR.MODE` (R103). -/
def execS1WrMode (_a : Addr) (v : Byte) (s : State) : Result :=
  writeScheme1 s fun r => { r with mode := modeOf v }

/-- `S1.RD.ROM0` (R104): bank 0 at the literal address, whatever the registers hold. -/
def execS1RdRom0 (a : Addr) (s : State) : Result :=
  unlessFatal s <| onScheme1 s fun _ => readRom (romOffset 0 a) a s

/-- `S1.RD.ROMX` (R105). -/
def execS1RdRomx (a : Addr) (s : State) : Result :=
  unlessFatal s <| onScheme1 s fun r => readRom (romOffset r.effRomBank a) a s

/-- `S1.RD.XRAM` (R107): gate first, bounds after it. -/
def execS1RdXram (a : Addr) (s : State) : Result :=
  unlessFatal s <| onScheme1 s fun r =>
    if r.windowOpen then readRam (ramOffset r.ramBank.toNat a) a s else readOpenBus s

/-- `S1.WR.XRAM` (R108): gate first, bounds after it. -/
def execS1WrXram (a : Addr) (v : Byte) (s : State) : Result :=
  unlessFatal s <| onScheme1 s fun r =>
    if r.windowOpen then writeRam (ramOffset r.ramBank.toNat a) a v s else ignoreWrite s

end Sys2Proof.Machine
end

