-- ==== Sys2Proof/Machine/SchemeThree.lean ====
section
/-! DEFINITION. The rows of Scheme3 (spec/42_scheme3.md R120 to R128). -/

namespace Sys2Proof.Machine

/-- A control-range write of Scheme3: registers replaced, `Ack`. -/
def writeScheme3 (s : State) (f : Scheme3Regs → Scheme3Regs) : Result :=
  unlessFatal s <| onScheme3 s fun r => .next ((s.setBank (.scheme3 (f r))).answer .ack)

/-- `S3.WR.EN` (R120). -/
def execS3WrEn (_a : Addr) (v : Byte) (s : State) : Result :=
  writeScheme3 s fun r => { r with enable := enableOf v }

/-- `S3.WR.ROMB` (R121). -/
def execS3WrRomb (_a : Addr) (v : Byte) (s : State) : Result :=
  writeScheme3 s fun r => { r with romBank := bank7Of v }

/-- `S3.WR.SEL` (R122): an undefined selection is stored as such, and noted. -/
def execS3WrSel (a : Addr) (v : Byte) (s : State) : Result :=
  unlessFatal s <| onScheme3 s fun r =>
    let s' := s.setBank (.scheme3 { r with select := selectOf v })
    if selectOf v = .undefined then .next (recoverableEntry .undefinedRegisterSelect a v .ack s')
    else .next (s'.answer .ack)

/-- The latch protocol (R123): 0 arms, 1 while armed copies, everything else disarms. -/
def Scheme3Regs.latchWrite (r : Scheme3Regs) (v : Byte) : Scheme3Regs :=
  if v = 0x00 then { r with latch := .armed }
  else if v = 0x01 ∧ r.latch = .armed then { r.latchCopy with latch := .idle }
  else { r with latch := .idle }

/-- `S3.WR.LATCH` (R123). -/
def execS3WrLatch (_a : Addr) (v : Byte) (s : State) : Result :=
  writeScheme3 s fun r => r.latchWrite v

/-- `S3.RD.ROM0` (R124): bank 0 at the literal address. -/
def execS3RdRom0 (a : Addr) (s : State) : Result :=
  unlessFatal s <| onScheme3 s fun _ => readRom (romOffset 0 a) a s

/-- `S3.RD.ROMX` (R125). -/
def execS3RdRomx (a : Addr) (s : State) : Result :=
  unlessFatal s <| onScheme3 s fun r => readRom (romOffset r.romBank.toNat a) a s

/-- `S3.RD.X` (R127): gate, then selection, then bounds (R184). An RTC read returns the snapshot (R147). -/
def execS3RdX (a : Addr) (s : State) : Result :=
  unlessFatal s <| onScheme3 s fun r =>
    if r.enable then
      match r.select with
      | .ramBank n => readRam (ramOffset n.toNat a) a s
      | .rtc x => .next (s.answer (.data (r.snap.get x)))
      | .undefined => readOpenBus s
    else readOpenBus s

/-- `S3.WR.X` (R128): gate, then selection, then bounds. An RTC write reaches the live register (R146). -/
def execS3WrX (a : Addr) (v : Byte) (s : State) : Result :=
  unlessFatal s <| onScheme3 s fun r =>
    if r.enable then
      match r.select with
      | .ramBank n => writeRam (ramOffset n.toNat a) a v s
      | .rtc x => .next ((s.setBank (.scheme3 { r with live := r.live.set x v })).answer .ack)
      | .undefined => ignoreWrite s
    else ignoreWrite s

end Sys2Proof.Machine
end

