-- ==== Sys2Proof/Machine/Dispatch.lean ====
section
/-! DEFINITION. One arm per operation, each a direct call of its meaning. -/

namespace Sys2Proof.Machine

def exec (i : Instr) (s : State) : Host.Outcome State Fault Refusal :=
  match i with
  | .nRdRom a => Sys2Proof.Machine.execNRdRom a s
  | .nWrRom a v => Sys2Proof.Machine.execNWrRom a v s
  | .nRdX a => Sys2Proof.Machine.execNRdX a s
  | .nWrX a v => Sys2Proof.Machine.execNWrX a v s
  | .s1WrRamen a v => Sys2Proof.Machine.execS1WrRamen a v s
  | .s1WrRomlo a v => Sys2Proof.Machine.execS1WrRomlo a v s
  | .s1WrUpper a v => Sys2Proof.Machine.execS1WrUpper a v s
  | .s1WrMode a v => Sys2Proof.Machine.execS1WrMode a v s
  | .s1RdRom0 a => Sys2Proof.Machine.execS1RdRom0 a s
  | .s1RdRomx a => Sys2Proof.Machine.execS1RdRomx a s
  | .s1RdXram a => Sys2Proof.Machine.execS1RdXram a s
  | .s1WrXram a v => Sys2Proof.Machine.execS1WrXram a v s
  | .s3WrEn a v => Sys2Proof.Machine.execS3WrEn a v s
  | .s3WrRomb a v => Sys2Proof.Machine.execS3WrRomb a v s
  | .s3WrSel a v => Sys2Proof.Machine.execS3WrSel a v s
  | .s3WrLatch a v => Sys2Proof.Machine.execS3WrLatch a v s
  | .s3RdRom0 a => Sys2Proof.Machine.execS3RdRom0 a s
  | .s3RdRomx a => Sys2Proof.Machine.execS3RdRomx a s
  | .s3RdX a => Sys2Proof.Machine.execS3RdX a s
  | .s3WrX a v => Sys2Proof.Machine.execS3WrX a v s
  | .fwd8 sch w a v => Sys2Proof.Machine.execFwd8 sch w a v s
  | .fwdC sch w a v => Sys2Proof.Machine.execFwdC sch w a v s
  | .poll => Sys2Proof.Machine.execPoll s
  | .cpu => Sys2Proof.Machine.execCpu s
  | .disp => Sys2Proof.Machine.execDisp s
  | .tmr => Sys2Proof.Machine.execTmr s
  | .yield => Sys2Proof.Machine.execYield s
  | .stopped => Sys2Proof.Machine.execStopped s

end Sys2Proof.Machine
end

