-- ==== Sys2Proof/Machine/Bus.lean ====
section
/-! DEFINITION. Running one word (R75), the bus contract `MemRead`/`MemWrite`, scripts (R83) and their
pseudo-operations (R84). -/

namespace Sys2Proof.Machine

/-- Decode a word and run its operation. -/
def runWord (o : OpWord) (s : State) : Result :=
  match decode o with
  | .ok i => exec i s
  | .error _ => .refused .undecodable

/-- One line of a script (R83). -/
inductive Access where
  | read (a : Addr)
  | write (a : Addr) (v : Byte)
  deriving DecidableEq, Repr

/-- The transaction word of a line: `T = {S, 0, A, 0x00}` or `T = {S, 1, A, v}` (R75). -/
def Access.word (sch : Scheme) : Access → BusWord
  | .read a => transaction sch .read a 0
  | .write a v => transaction sch .write a v

/-- The bus address of a line. -/
def Access.addr : Access → Addr
  | .read a => a
  | .write a _ => a

/-- A core issues the line. -/
def Access.event : Access → CoreEvent
  | .read a => .read a
  | .write a v => .write a v

/-- One transaction under the session's scheme (R75). -/
def transact (x : Access) (s : State) : Result := runWord (.bus (x.word s.scheme)) s

/-- A script: its transactions one at a time, in order (R63). -/
def runScript : List Access → State → Result
  | [], s => .next s
  | x :: rest, s =>
    match transact x s with
    | .next t => runScript rest t
    | .fault f => .fault f
    | .refused r => .refused r

/-- `ram_on()` (R84). -/
def ramOn : List Access := [.write 0x0000 0x0A]

/-- `ram_off()` (R84). -/
def ramOff : List Access := [.write 0x0000 0x00]

/-- `rombank(n)` (R84). -/
def rombank (n : Byte) : List Access := [.write 0x2000 n]

/-- `mode(m)` (R84). -/
def modeWrite (m : Byte) : List Access := [.write 0x6000 m]

/-- `select(s)` (R84). -/
def selectWrite (x : Byte) : List Access := [.write 0x4000 x]

/-- `latch()` (R84). -/
def latchPair : List Access := [.write 0x6000 0x00, .write 0x6000 0x01]

/-- `tick(n)` (R84): the cores' part of `n` ticks with no transaction, three stage calls that return at
once per tick. -/
def tickEvents (n : Nat) : List CoreEvent := List.replicate (3 * n) .done

end Sys2Proof.Machine
end

