-- ==== Sys2Proof/Machine/Step.lean ====
section
/-! DEFINITION. One step of the machine, and the host's way to place a word where the next step takes it. -/

namespace Sys2Proof.Machine

/-- One step: the next word (a transaction of the running core, or a phase), decoded and run. -/
def step (s : State) : Host.Outcome State Fault Refusal := runWord (fetchWord s) (consume s)

/-- The state in which the next step takes the word whose bits are `w`; a number that is no word at all
changes nothing. -/
def State.withFetchWord (s : State) (nbits w : Nat) : State :=
  match OpWord.ofBits nbits w with
  | .ok o => placeWord o s
  | .error _ => s

end Sys2Proof.Machine
end

