-- ==== Sys2Proof/Safety.lean ====
section
/-! DEFINITION. What counts as a legal state (spec/10_state.md R33 and the rules that keep it) and as a
safe one, in the terms the statements use. -/

namespace Sys2Proof.Machine

/-- The register group is legal under `RTC_TICKS_PER_SECOND = n`: R33 (a), (b), (e). R33 (c) holds by the
width of `ram_bank`. -/
abbrev BankController.legal (n : Nat) (b : BankController) : Prop :=
  match b with
  | .noController => True
  | .unsupported => True
  | .scheme1 r => r.romLo ≠ 0
  | .scheme3 r => r.romBank ≠ 0 ∧ r.rtcSub < n

/-- The sequencer is legal under `MAIN_CYCLES = n`: R33 (d), with what R162 (`YIELD`) and R161 (the
stages) make of it. -/
abbrev counterLegal (n : Nat) (p : Phase) (c : Nat) : Prop :=
  match p with
  | .cpu | .disp | .tmr => c < n
  | .yield => c = n
  | .poll | .stopped => c ≤ n

/-- The invariant of the machine. -/
structure State.Inv (s : State) : Prop where
  /-- R8: `MAIN_CYCLES` is at least 1 -/
  mainCycles_pos : 1 ≤ s.session.mainCycles
  /-- R8: `RTC_TICKS_PER_SECOND` is at least 1 -/
  rtcTicks_pos : 1 ≤ s.session.rtcTicksPerSecond
  /-- R33 (a), (b), (e) -/
  bank_legal : s.bank.legal s.session.rtcTicksPerSecond
  /-- R33 (d) -/
  counter_legal : counterLegal s.session.mainCycles s.phase s.cycleCounter
  /-- the RAM image is in canonical form -/
  ram_wf : s.ram.wf
  /-- R33 (f): no byte beyond `RAM_SIZE` -/
  ram_fits : s.ram.fits s.session.ramSize
  /-- R181: a fatal error has stopped the sequencer -/
  fatal_stops : s.fatal ≠ none → s.phase = .stopped
  /-- R176: an unsupported scheme has a fatal record from the start -/
  unsupported_fatal : s.scheme = .unsupported → s.fatal ≠ none

/-- A safe state: no fatal error has been recorded. -/
abbrev State.safe (s : State) : Prop := s.fatal = none

/-- Two states agree on everything the spec calls state or parameter (R10, R11): they may differ only in the
model's own view of inputs and outputs. -/
abbrev State.sameBlock (s t : State) : Prop :=
  t.session = s.session ∧ t.bank = s.bank ∧ t.ram = s.ram ∧ t.phase = s.phase ∧
  t.cycleCounter = s.cycleCounter ∧ t.fatal = s.fatal

/-- The state a fatal error leaves (R181), spelled out: the record, the stopped sequencer, the outcome at the
bus port, and nothing else. -/
abbrev State.stoppedBy (s : State) (e : ErrorKind) (a : Addr) (v : Byte) : State :=
  { s with
    fatal := some { error := e, addr := a, value := v, scheme := s.scheme }
    phase := .stopped
    ports := { outcome := some (.fatal { error := e, addr := a, value := v, scheme := s.scheme }) } }

/-- The state after a transaction with outcome `o` that changes nothing of the block. -/
abbrev State.answered (s : State) (o : BusOutcome) : State := { s with ports := { outcome := some o } }

/-- `n` steps, stopping at the first step that is no next state. -/
def runSteps : Nat → State → Result
  | 0, s => .next s
  | n + 1, s =>
    match step s with
    | .next t => runSteps n t
    | .fault f => .fault f
    | .refused r => .refused r

/-- The strobes of the scheduler port raised in the first `n` steps, in order (R9 (d)). -/
def strobesIn : Nat → State → List Call
  | 0, _ => []
  | n + 1, s =>
    match step s with
    | .next t => t.ports.raised ++ strobesIn n t
    | .fault _ => []
    | .refused _ => []

/-- The calls of a whole frame of `m` ticks (R157): one poll, then `m` times the three stages in order. -/
def frameCalls (m : Nat) : List Call :=
  .pollInput :: (List.replicate m [Call.cpuAdvance, .displayAdvance, .timerAdvance]).flatten

/-- The clock registers in normal use (R140): seconds and minutes below 60, hours below 24. -/
abbrev RtcRegs.normal (x : RtcRegs) : Prop :=
  x.seconds.toNat < 60 ∧ x.minutes.toNat < 60 ∧ x.hours.toNat < 24

/-- The time a clock shows, in seconds: mixed radix 60, 60, 24 over the 9-bit day counter (R148 (c)). -/
def RtcRegs.time (x : RtcRegs) : Nat :=
  ((x.day * 24 + x.hours.toNat) * 60 + x.minutes.toNat) * 60 + x.seconds.toNat

/-- The carry flag, `DH[7]` (R25). -/
def RtcRegs.carry (x : RtcRegs) : Bool := x.dayHigh.getLsbD 7

/-- The stage that is number `k` of a tick (R157: `CPU`, `DISP`, `TMR`). -/
def stageAt (k : Nat) : Phase :=
  match k with
  | 0 => .cpu
  | 1 => .disp
  | _ => .tmr

end Sys2Proof.Machine
end

