-- ==== Sys2Proof/WellFormed.lean ====
section
/-! DEFINITION. Which terms of `Instr` are operations of the block: the address lies in the row's bus
range (the "Operands" line of each family rule), a forwarded transaction carries one of the three
decodable scheme tags (R71), and on a forwarded read the data field is the 0 its producer sets (R70). -/

namespace Sys2Proof

/-- `lo ≤ A ≤ hi`, both ends included (spec/00_scope.md section 6). -/
def inRange (a : Addr) (lo hi : Nat) : Bool := lo ≤ a.toNat && a.toNat ≤ hi

/-- The operands of a forwarded transaction: no reserved scheme tag, no data on a read. -/
def forwardOk (sch : Scheme) (w : Dir) (v : Byte) : Bool :=
  sch != .unsupported && (w == .write || v == 0)

/-- The well-formed operations. -/
def Instr.wf : Instr → Bool
  | .nRdRom a => inRange a 0x0000 0x7FFF
  | .nWrRom a _ => inRange a 0x0000 0x7FFF
  | .nRdX a => inRange a 0xA000 0xBFFF
  | .nWrX a _ => inRange a 0xA000 0xBFFF
  | .s1WrRamen a _ => inRange a 0x0000 0x1FFF
  | .s1WrRomlo a _ => inRange a 0x2000 0x3FFF
  | .s1WrUpper a _ => inRange a 0x4000 0x5FFF
  | .s1WrMode a _ => inRange a 0x6000 0x7FFF
  | .s1RdRom0 a => inRange a 0x0000 0x3FFF
  | .s1RdRomx a => inRange a 0x4000 0x7FFF
  | .s1RdXram a => inRange a 0xA000 0xBFFF
  | .s1WrXram a _ => inRange a 0xA000 0xBFFF
  | .s3WrEn a _ => inRange a 0x0000 0x1FFF
  | .s3WrRomb a _ => inRange a 0x2000 0x3FFF
  | .s3WrSel a _ => inRange a 0x4000 0x5FFF
  | .s3WrLatch a _ => inRange a 0x6000 0x7FFF
  | .s3RdRom0 a => inRange a 0x0000 0x3FFF
  | .s3RdRomx a => inRange a 0x4000 0x7FFF
  | .s3RdX a => inRange a 0xA000 0xBFFF
  | .s3WrX a _ => inRange a 0xA000 0xBFFF
  | .fwd8 sch w a v => inRange a 0x8000 0x9FFF && forwardOk sch w v
  | .fwdC sch w a v => inRange a 0xC000 0xFFFF && forwardOk sch w v
  | .poll | .cpu | .disp | .tmr | .yield | .stopped => true

end Sys2Proof
end

