-- ==== Sys2Proof/Certificates/Slice0/Obligations.lean ====
section
/-! DEFINITION. The statements for the provers. A transaction statement names the state of the block and the
operands alone; its conclusion is the next state, written as an update of the old one, so that what it
does not name is unchanged. Offsets are written in the arithmetic of the spec (`a.toNat % 16384` for
`A[13:0]`), not with the model's operand functions. -/

open Sys2Proof Sys2Proof.Machine

/-! ### Encoding -/

/-- Decoding the word of any well-formed operation gives it back, with every operand. Rests on the packing
of spec/30_encoding.md (spec/92_eei_decisions.md D1). -/
def Obligations.DecodeOfEncodeIsIdentity : Prop :=
  ∀ i : Instr, i.wf = true → decode (encode i) = .ok i

/-- What a transaction word decodes to is well formed, and encodes to the same word; the data field of a
read is ignored by the decoder and written back as 0 (spec/30_encoding.md section 1). -/
def Obligations.EncodeOfDecodeKeepsWord : Prop :=
  ∀ (t : BusWord) (i : Instr), decode (.bus t) = .ok i →
    i.wf = true ∧ encode i = .bus (if t.getLsbD 24 then t else t &&& 0x7FFFF00)

/-- The decode map is total and its rows are disjoint: under a decodable scheme tag exactly one row matches,
and the decoder answers that row's operation; under the reserved tag 10 nothing is decoded. The rows
`FWD.8` and `FWD.C` do not test the tag; that their words are not decoded under 10 either is log
entry 11. -/
def Obligations.ExactlyOneRowMatches : Prop :=
  ∀ t : BusWord,
    (fieldS t ≠ 0b10 →
      ∃ r : BusRow, t &&& r.pattern.2 = r.pattern.1 ∧
        (∀ r' : BusRow, t &&& r'.pattern.2 = r'.pattern.1 → r' = r) ∧
        decode (.bus t) = .ok (r.instr t)) ∧
    (fieldS t = 0b10 → decode (.bus t) = .error .reservedScheme)

/-- Words written out in spec/95_test_vectors.md (V0.1 to V0.24) and the phase codes of
spec/30_encoding.md decode to what they stand for. The spec calls the codes 110 and 111 unused; that the
decoder answers an error for them is the model's choice, log entry 11. -/
def Obligations.SpecWordsDecode : Prop :=
  decode (.bus 0x07FFF00) = .ok (.nRdRom 0x7FFF) ∧
  decode (.bus 0x1200003) = .ok (.nWrRom 0x2000 0x03) ∧
  decode (.bus 0x31FFF0A) = .ok (.s1WrRamen 0x1FFF 0x0A) ∧
  decode (.bus 0x3A00577) = .ok (.s1WrXram 0xA005 0x77) ∧
  decode (.bus 0x2BFFF00) = .ok (.s1RdXram 0xBFFF) ∧
  decode (.bus 0x7400009) = .ok (.s3WrSel 0x4000 0x09) ∧
  decode (.bus 0x67FFF00) = .ok (.s3RdRomx 0x7FFF) ∧
  decode (.bus 0x29FFF00) = .ok (.fwd8 .scheme1 .read 0x9FFF 0) ∧
  decode (.bus 0x7FFFF01) = .ok (.fwdC .scheme3 .write 0xFFFF 0x01) ∧
  decode (.phase 0b000) = .ok .poll ∧ decode (.phase 0b001) = .ok .cpu ∧
  decode (.phase 0b010) = .ok .disp ∧ decode (.phase 0b011) = .ok .tmr ∧
  decode (.phase 0b100) = .ok .yield ∧ decode (.phase 0b101) = .ok .stopped ∧
  decode (.phase 0b110) = .error .unusedPhaseCode ∧ decode (.phase 0b111) = .error .unusedPhaseCode

/-! ### The step -/

/-- When the next word decodes to `i`, a step is `exec i`, on the state from which the taken event of the
running core (if the phase is a stage) has been removed. That a core's transactions are taken one by one
from a list of events, and the list itself, are the model's choice (log entries 3 and 12). -/
def Obligations.StepRunsFetchedInstr : Prop :=
  ∀ (s : State) (i : Instr), decode (fetchWord s) = .ok i → step s = exec i (consume s)

/-- The next word. In a stage it is the running core's next transaction, packed as `T = {S, W, A, D}` with
the session's scheme and `D = 0` on a read, or the phase itself when the call returns; elsewhere it is
the phase. The taken event is removed and nothing else. How a core's transactions reach the block is the
model's own choice (log entry 3). -/
def Obligations.NextWordIsTransactionOrPhase : Prop :=
  ∀ s : State,
    (s.phase.isStage = true →
      (∀ a rest, s.events = .read a :: rest →
        fetchWord s = .bus (transaction s.scheme .read a 0) ∧ consume s = { s with events := rest }) ∧
      (∀ a v rest, s.events = .write a v :: rest →
        fetchWord s = .bus (transaction s.scheme .write a v) ∧ consume s = { s with events := rest }) ∧
      (∀ rest, s.events = .done :: rest →
        fetchWord s = encode (match s.phase with | .cpu => .cpu | .disp => .disp | _ => .tmr) ∧
        consume s = { s with events := rest }) ∧
      (s.events = [] →
        fetchWord s = encode (match s.phase with | .cpu => .cpu | .disp => .disp | _ => .tmr) ∧
        consume s = s)) ∧
    (s.phase = .poll → fetchWord s = encode .poll ∧ consume s = s) ∧
    (s.phase = .yield → fetchWord s = encode .yield ∧ consume s = s) ∧
    (s.phase = .stopped → fetchWord s = encode .stopped ∧ consume s = s)

/-! ### Scheme None and the forwarded transactions -/

/-- `N.RD.ROM`: the ROM byte at the literal address; beyond the image, `OffsetOutOfRange`, which is the spec's
decision D15. -/
def Obligations.NoneRomRead : Prop :=
  ∀ (s : State) (a : Addr), s.fatal = none → s.bank = .noController →
    (a.toNat < s.session.romLen →
      exec (.nRdRom a) s = .next (s.answered (.data (s.session.rom.read a.toNat)))) ∧
    (s.session.romLen ≤ a.toNat → exec (.nRdRom a) s = .next (s.stoppedBy .offsetOutOfRange a 0))

/-- `N.WR.ROM` (R91): acknowledged, nothing written, whatever `ROM_LEN` is. -/
def Obligations.NoneRomWriteDiscarded : Prop :=
  ∀ (s : State) (a : Addr) (v : Byte), s.fatal = none → s.bank = .noController →
    exec (.nWrRom a v) s = .next (s.answered .ack)

/-- `N.RD.X` and `N.WR.X` raise `UnmappedAddress`, with the address, the written value (0x00 for a read) and
the scheme in the record. The rule is the spec's decision D4. -/
def Obligations.NoneExternalWindowUnmapped : Prop :=
  ∀ (s : State) (a : Addr) (v : Byte), s.fatal = none → s.bank = .noController →
    exec (.nRdX a) s = .next (s.stoppedBy .unmappedAddress a 0) ∧
    exec (.nWrX a v) s = .next (s.stoppedBy .unmappedAddress a v)

/-- `FWD.8` and `FWD.C`, under any scheme and in both directions: the outcome is `Forward` and no state of
the block changes. A forwarded read brings back the next free byte of the general memory component, of
which nothing is assumed. The rule is the spec's decision D3; the free byte is log entry 6. -/
def Obligations.ForwardedTransactions : Prop :=
  ∀ (s : State) (sch : Scheme) (a : Addr) (v : Byte), s.fatal = none →
    (∀ i ∈ [Instr.fwd8 sch .read a v, Instr.fwdC sch .read a v],
      exec i s = .next { s with
        ports := { outcome := some .forward, oracle := some (Config.generalMemoryByte s.oracleCount) }
        oracleCount := s.oracleCount + 1 }) ∧
    (∀ i ∈ [Instr.fwd8 sch .write a v, Instr.fwdC sch .write a v],
      exec i s = .next (s.answered .forward))

/-- The law of Scheme None (spec/40_scheme_none.md, derived there): a script that leaves the external window
alone and reads no byte beyond the ROM image leaves the whole block as it was, and after it every read
below 0x8000 and inside the image returns the ROM byte at the literal address. -/
def Obligations.NoneSessionIsLiteralRom : Prop :=
  ∀ (xs : List Access) (s : State), s.fatal = none → s.bank = .noController →
    (∀ x ∈ xs, ¬ (0xA000 ≤ x.addr.toNat ∧ x.addr.toNat ≤ 0xBFFF)) →
    (∀ a : Addr, Access.read a ∈ xs → a.toNat < 0x8000 → a.toNat < s.session.romLen) →
    ∃ t, runScript xs s = .next t ∧ s.sameBlock t ∧
      ∀ a : Addr, a.toNat < 0x8000 → a.toNat < s.session.romLen →
        transact (.read a) t = .next (t.answered (.data (s.session.rom.read a.toNat)))

/-! ### Scheme1 -/

/-- `S1.WR.RAMEN` (R100): `ram_enable` is 1 exactly when the low four bits equal 0xA. -/
def Obligations.S1RamEnableWrite : Prop :=
  ∀ (s : State) (r : Scheme1Regs) (a : Addr) (v : Byte), s.fatal = none → s.bank = .scheme1 r →
    exec (.s1WrRamen a v) s = .next { s with
      bank := .scheme1 { r with ramEnable := decide (v.toNat % 16 = 10) }
      ports := { outcome := some .ack } }

/-- `S1.WR.ROMLO`: the low field is `max(v[4:0], 1)`, the upper field stays. That the coercion looks at the
written bits alone is the spec's decision D6. -/
def Obligations.S1RomLowWrite : Prop :=
  ∀ (s : State) (r : Scheme1Regs) (a : Addr) (v : Byte), s.fatal = none → s.bank = .scheme1 r →
    exec (.s1WrRomlo a v) s = .next { s with
      bank := .scheme1 { r with romLo := BitVec.ofNat 5 (max (v.toNat % 32) 1) }
      ports := { outcome := some .ack } }

/-- `S1.WR.UPPER`: in `ROM` mode the upper field of `rom_bank`, in `RAM` mode `ram_bank`, takes `v[1:0]`; the
other keeps its value. Which bits of `v` is the spec's decision D7. -/
def Obligations.S1UpperWrite : Prop :=
  ∀ (s : State) (r : Scheme1Regs) (a : Addr) (v : Byte), s.fatal = none → s.bank = .scheme1 r →
    (r.mode = .rom → exec (.s1WrUpper a v) s = .next { s with
      bank := .scheme1 { r with romHi := BitVec.ofNat 2 (v.toNat % 4) }
      ports := { outcome := some .ack } }) ∧
    (r.mode = .ram → exec (.s1WrUpper a v) s = .next { s with
      bank := .scheme1 { r with ramBank := BitVec.ofNat 2 (v.toNat % 4) }
      ports := { outcome := some .ack } })

/-- `S1.WR.MODE` (R103): `mode` is bit 0 of the value, 0 = ROM, 1 = RAM, and no bank register moves. -/
def Obligations.S1ModeWrite : Prop :=
  ∀ (s : State) (r : Scheme1Regs) (a : Addr) (v : Byte), s.fatal = none → s.bank = .scheme1 r →
    exec (.s1WrMode a v) s = .next { s with
      bank := .scheme1 { r with mode := if v.toNat % 2 = 1 then .ram else .rom }
      ports := { outcome := some .ack } }

/-- `S1.RD.ROM0` and `S3.RD.ROM0`: bank 0 at the literal address, whatever the registers hold; beyond the
image, `OffsetOutOfRange`. The fixed window is the spec's decision D5. -/
def Obligations.FixedWindowReads : Prop :=
  ∀ (s : State) (a : Addr), s.fatal = none → a.toNat < 0x4000 →
    ∀ i, ((i = .s1RdRom0 a ∧ s.scheme = .scheme1) ∨ (i = .s3RdRom0 a ∧ s.scheme = .scheme3)) →
      (a.toNat < s.session.romLen → exec i s = .next (s.answered (.data (s.session.rom.read a.toNat)))) ∧
      (s.session.romLen ≤ a.toNat → exec i s = .next (s.stoppedBy .offsetOutOfRange a 0))

/-- `S1.RD.ROMX`: offset `eff * 16384 + A[13:0]`, with all seven bank bits in `ROM` mode and the low five in
`RAM` mode; beyond the image, `OffsetOutOfRange`, which is the spec's decision D15. -/
def Obligations.S1SwitchableRead : Prop :=
  ∀ (s : State) (r : Scheme1Regs) (a : Addr) (off : Nat), s.fatal = none → s.bank = .scheme1 r →
    off = (if r.mode = .rom then r.romBank.toNat else r.romBank.toNat % 32) * 16384 + a.toNat % 16384 →
    (off < s.session.romLen →
      exec (.s1RdRomx a) s = .next (s.answered (.data (s.session.rom.read off)))) ∧
    (s.session.romLen ≤ off → exec (.s1RdRomx a) s = .next (s.stoppedBy .offsetOutOfRange a 0))

/-- `S1.RD.XRAM`: closed unless `ram_enable = 1` and `mode = RAM`, and then `OPEN_BUS` whatever `RAM_SIZE` is;
open, the RAM byte at `ram_bank * 8192 + A[12:0]`, or `OffsetOutOfRange` beyond the image. The closed
read and the error are the spec's decisions D8 and D15. -/
def Obligations.S1ExternalRead : Prop :=
  ∀ (s : State) (r : Scheme1Regs) (a : Addr) (off : Nat), s.fatal = none → s.bank = .scheme1 r →
    off = r.ramBank.toNat * 8192 + a.toNat % 8192 →
    (¬ (r.ramEnable = true ∧ r.mode = .ram) →
      exec (.s1RdXram a) s = .next (s.answered (.data s.session.openBus))) ∧
    (r.ramEnable = true → r.mode = .ram → off < s.session.ramSize →
      exec (.s1RdXram a) s = .next (s.answered (.data (s.ram.read off)))) ∧
    (r.ramEnable = true → r.mode = .ram → s.session.ramSize ≤ off →
      exec (.s1RdXram a) s = .next (s.stoppedBy .offsetOutOfRange a 0))

/-- `S1.WR.XRAM`: ignored through a closed gate; open, one byte of RAM is replaced, all 8 bits, and every other
byte reads as before; beyond the image, `OffsetOutOfRange` and RAM unchanged. The ignored write and the
error are the spec's decisions D8 and D15. -/
def Obligations.S1ExternalWrite : Prop :=
  ∀ (s : State) (r : Scheme1Regs) (a : Addr) (v : Byte) (off : Nat), s.fatal = none →
    s.bank = .scheme1 r → s.ram.wf → off = r.ramBank.toNat * 8192 + a.toNat % 8192 →
    (¬ (r.ramEnable = true ∧ r.mode = .ram) → exec (.s1WrXram a v) s = .next (s.answered .ack)) ∧
    (r.ramEnable = true → r.mode = .ram → off < s.session.ramSize →
      ∃ m : Memory, exec (.s1WrXram a v) s =
          .next { s with ram := m, ports := { outcome := some .ack } } ∧
        m.wf ∧ ∀ x, m.read x = if x = off then v else s.ram.read x) ∧
    (r.ramEnable = true → r.mode = .ram → s.session.ramSize ≤ off →
      exec (.s1WrXram a v) s = .next (s.stoppedBy .offsetOutOfRange a v))

/-- The law of the Scheme1 enable (spec/41_scheme1.md section 4, derived there): after a write to the enable
range whose low nibble is not 0xA, in either mode, every read of the external window returns `OPEN_BUS`
and every write there changes nothing. -/
def Obligations.S1DisabledWindowIsInert : Prop :=
  ∀ (s : State) (r : Scheme1Regs) (a : Addr) (v : Byte), s.fatal = none → s.bank = .scheme1 r →
    a.toNat < 0x2000 → v.toNat % 16 ≠ 10 →
    ∃ t, transact (.write a v) s = .next t ∧ t.ram = s.ram ∧
      ∀ b : Addr, 0xA000 ≤ b.toNat → b.toNat ≤ 0xBFFF →
        transact (.read b) t = .next (t.answered (.data s.session.openBus)) ∧
        ∀ w : Byte, transact (.write b w) t = .next (t.answered .ack)

/-- Bank switching is immediate (spec/70_reset_and_hazards.md section 3, derived there; the source's scenario
E6): a bank write followed by a read of the switchable window shows the new bank, with bank 0 coerced
to 1, under Scheme1 (upper field 0, `ROM` mode) and under Scheme3. -/
def Obligations.BankWriteThenReadShowsBank : Prop :=
  ∀ (s : State) (w a : Addr) (v : Byte), s.fatal = none →
    0x2000 ≤ w.toNat → w.toNat ≤ 0x3FFF → 0x4000 ≤ a.toNat → a.toNat ≤ 0x7FFF →
    (∀ r off, s.bank = .scheme1 r → r.romHi = 0 → r.mode = .rom →
      off = max (v.toNat % 32) 1 * 16384 + a.toNat % 16384 → off < s.session.romLen →
      ∃ t, runScript [.write w v, .read a] s = .next t ∧
        t.ports.outcome = some (.data (s.session.rom.read off))) ∧
    (∀ r off, s.bank = .scheme3 r →
      off = max (v.toNat % 128) 1 * 16384 + a.toNat % 16384 → off < s.session.romLen →
      ∃ t, runScript [.write w v, .read a] s = .next t ∧
        t.ports.outcome = some (.data (s.session.rom.read off)))

/-- A control-range write repeated with the same value leaves the state the first one left
(spec/20_memory.md section 4, derived there). -/
def Obligations.RepeatedControlWriteIsIdempotent : Prop :=
  ∀ (s t : State) (a : Addr) (v : Byte),
    ∀ i ∈ [Instr.s1WrRamen a v, .s1WrRomlo a v, .s1WrUpper a v, .s1WrMode a v,
           .s3WrEn a v, .s3WrRomb a v, .s3WrSel a v, .s3WrLatch a v],
      exec i s = .next t → exec i t = .next t

/-! ### Scheme3 -/

/-- `S3.WR.EN`: `enable` is 1 exactly when the low four bits equal 0xA. The operation is the spec's decision
D9. -/
def Obligations.S3EnableWrite : Prop :=
  ∀ (s : State) (r : Scheme3Regs) (a : Addr) (v : Byte), s.fatal = none → s.bank = .scheme3 r →
    exec (.s3WrEn a v) s = .next { s with
      bank := .scheme3 { r with enable := decide (v.toNat % 16 = 10) }
      ports := { outcome := some .ack } }

/-- `S3.WR.ROMB` (R121): `rom_bank` is `max(v[6:0], 1)`. -/
def Obligations.S3RomBankWrite : Prop :=
  ∀ (s : State) (r : Scheme3Regs) (a : Addr) (v : Byte), s.fatal = none → s.bank = .scheme3 r →
    exec (.s3WrRomb a v) s = .next { s with
      bank := .scheme3 { r with romBank := BitVec.ofNat 7 (max (v.toNat % 128) 1) }
      ports := { outcome := some .ack } }

/-- `S3.WR.SEL`: 0 to 3 select a RAM bank, 0x08 to 0x0C an RTC register, every other byte the undefined
selection, which is acknowledged, noted and not fatal. The codes are the spec's decision D10; the note
is optional there (log entry 8). -/
def Obligations.S3SelectorWrite : Prop :=
  ∀ (s : State) (r : Scheme3Regs) (a : Addr) (v : Byte), s.fatal = none → s.bank = .scheme3 r →
    (v.toNat ≤ 3 → exec (.s3WrSel a v) s = .next { s with
      bank := .scheme3 { r with select := .ramBank (BitVec.ofNat 2 v.toNat) }
      ports := { outcome := some .ack } }) ∧
    (∀ c ∈ [(0x08#8, RtcReg.S), (0x09#8, .M), (0x0A#8, .H), (0x0B#8, .DL), (0x0C#8, .DH)], v = c.1 →
      exec (.s3WrSel a v) s = .next { s with
        bank := .scheme3 { r with select := .rtc c.2 }
        ports := { outcome := some .ack } }) ∧
    (3 < v.toNat → ¬ (8 ≤ v.toNat ∧ v.toNat ≤ 12) → exec (.s3WrSel a v) s = .next { s with
      bank := .scheme3 { r with select := .undefined }
      ports := { outcome := some .ack
                 note := some { error := .undefinedRegisterSelect, addr := a, value := v, scheme := .scheme3 } } })

/-- `S3.WR.LATCH`: 0 arms from any state; 1 while armed copies the live counters into the snapshot and
disarms; every other write disarms without a copy. The comparison of the whole byte is the spec's
decision D11. -/
def Obligations.S3LatchWrite : Prop :=
  ∀ (s : State) (r : Scheme3Regs) (a : Addr) (v : Byte), s.fatal = none → s.bank = .scheme3 r →
    (v = 0 → exec (.s3WrLatch a v) s = .next { s with
      bank := .scheme3 { r with latch := .armed }
      ports := { outcome := some .ack } }) ∧
    (v = 1 → r.latch = .armed → exec (.s3WrLatch a v) s = .next { s with
      bank := .scheme3 { r with latch := .idle, snap := r.live }
      ports := { outcome := some .ack } }) ∧
    (v = 1 ∧ r.latch = .idle ∨ 2 ≤ v.toNat → exec (.s3WrLatch a v) s = .next { s with
      bank := .scheme3 { r with latch := .idle }
      ports := { outcome := some .ack } })

/-- `S3.RD.ROMX`: offset `rom_bank * 16384 + A[13:0]`; beyond the image, `OffsetOutOfRange`, which is the spec's
decision D15. -/
def Obligations.S3SwitchableRead : Prop :=
  ∀ (s : State) (r : Scheme3Regs) (a : Addr) (off : Nat), s.fatal = none → s.bank = .scheme3 r →
    off = r.romBank.toNat * 16384 + a.toNat % 16384 →
    (off < s.session.romLen →
      exec (.s3RdRomx a) s = .next (s.answered (.data (s.session.rom.read off)))) ∧
    (s.session.romLen ≤ off → exec (.s3RdRomx a) s = .next (s.stoppedBy .offsetOutOfRange a 0))

/-- `S3.RD.X`: `OPEN_BUS` while disabled or while the selection is undefined; the RAM byte of the selected bank,
or `OffsetOutOfRange` beyond the image; the snapshot byte of the selected RTC register, whatever the
address in the window is. The inert reads, the snapshot and the error are the spec's decisions D8, D13
and D15. -/
def Obligations.S3ExternalRead : Prop :=
  ∀ (s : State) (r : Scheme3Regs) (a : Addr), s.fatal = none → s.bank = .scheme3 r →
    (r.enable = false → exec (.s3RdX a) s = .next (s.answered (.data s.session.openBus))) ∧
    (r.enable = true →
      (r.select = .undefined → exec (.s3RdX a) s = .next (s.answered (.data s.session.openBus))) ∧
      (r.select = .rtc .S → exec (.s3RdX a) s = .next (s.answered (.data r.snap.seconds))) ∧
      (r.select = .rtc .M → exec (.s3RdX a) s = .next (s.answered (.data r.snap.minutes))) ∧
      (r.select = .rtc .H → exec (.s3RdX a) s = .next (s.answered (.data r.snap.hours))) ∧
      (r.select = .rtc .DL → exec (.s3RdX a) s = .next (s.answered (.data r.snap.dayLow))) ∧
      (r.select = .rtc .DH → exec (.s3RdX a) s = .next (s.answered (.data r.snap.dayHigh))) ∧
      (∀ n off, r.select = .ramBank n → off = n.toNat * 8192 + a.toNat % 8192 →
        (off < s.session.ramSize →
          exec (.s3RdX a) s = .next (s.answered (.data (s.ram.read off)))) ∧
        (s.session.ramSize ≤ off → exec (.s3RdX a) s = .next (s.stoppedBy .offsetOutOfRange a 0))))

/-- `S3.WR.X`: ignored while disabled or while the selection is undefined; one byte of the selected RAM bank,
or `OffsetOutOfRange` beyond the image; all 8 bits of the selected live RTC register, with snapshot and
prescaler unchanged. The inert writes, the write target, the prescaler and the error are the spec's
decisions D8, D13, D14 and D15. -/
def Obligations.S3ExternalWrite : Prop :=
  ∀ (s : State) (r : Scheme3Regs) (a : Addr) (v : Byte), s.fatal = none → s.bank = .scheme3 r →
    s.ram.wf →
    (r.enable = false → exec (.s3WrX a v) s = .next (s.answered .ack)) ∧
    (r.enable = true →
      (r.select = .undefined → exec (.s3WrX a v) s = .next (s.answered .ack)) ∧
      (∀ x l, r.select = .rtc x →
        l = (match x with
          | .S => { r.live with seconds := v }
          | .M => { r.live with minutes := v }
          | .H => { r.live with hours := v }
          | .DL => { r.live with dayLow := v }
          | .DH => { r.live with dayHigh := v }) →
        exec (.s3WrX a v) s = .next { s with
          bank := .scheme3 { r with live := l }
          ports := { outcome := some .ack } }) ∧
      (∀ n off, r.select = .ramBank n → off = n.toNat * 8192 + a.toNat % 8192 →
        (off < s.session.ramSize →
          ∃ m : Memory, exec (.s3WrX a v) s =
              .next { s with ram := m, ports := { outcome := some .ack } } ∧
            m.wf ∧ ∀ x, m.read x = if x = off then v else s.ram.read x) ∧
        (s.session.ramSize ≤ off → exec (.s3WrX a v) s = .next (s.stoppedBy .offsetOutOfRange a v))))

/-- The round trip of the source (spec/42_scheme3.md section 4, derived there): with the window enabled and an
RTC register selected, write a byte, latch, and read: the byte comes back, for every byte, every register
and all addresses of the ranges. -/
def Obligations.RtcWriteLatchReadRoundTrip : Prop :=
  ∀ (s : State) (r : Scheme3Regs) (x : RtcReg) (v : Byte) (a b c d : Addr), s.fatal = none →
    s.bank = .scheme3 r → r.enable = true → r.select = .rtc x →
    0xA000 ≤ a.toNat → a.toNat ≤ 0xBFFF → 0x6000 ≤ b.toNat → b.toNat ≤ 0x7FFF →
    0x6000 ≤ c.toNat → c.toNat ≤ 0x7FFF → 0xA000 ≤ d.toNat → d.toNat ≤ 0xBFFF →
    ∃ t, runScript [.write a v, .write b 0, .write c 1, .read d] s = .next t ∧
      t.ports.outcome = some (.data v)

/-- Latch sequences (the source's property E4, spec/42_scheme3.md section 4): over any sequence of writes to
the latch range from `Idle`, the snapshot becomes the live counters exactly if somewhere a 0 is
immediately followed by a 1, and otherwise keeps its value. -/
def Obligations.LatchCopiesExactlyOnZeroThenOne : Prop :=
  ∀ (ws : List (Addr × Byte)) (s : State) (r : Scheme3Regs), s.fatal = none → s.bank = .scheme3 r →
    r.latch = .idle → (∀ w ∈ ws, 0x6000 ≤ w.1.toNat ∧ w.1.toNat ≤ 0x7FFF) →
    ∃ t r', runScript (ws.map fun w => .write w.1 w.2) s = .next t ∧ t.bank = .scheme3 r' ∧
      r'.live = r.live ∧
      ([0x00#8, 0x01#8] <:+: ws.map Prod.snd → r'.snap = r.live) ∧
      (¬ [0x00#8, 0x01#8] <:+: ws.map Prod.snd → r'.snap = r.snap)

/-- The latch copy (R143): the step that resolves a write of 1 to the latch range while armed copies all five
registers at once and leaves the live counters; and no other step, from any state, changes the
snapshot. -/
def Obligations.SnapshotWrittenOnlyByLatchCopy : Prop :=
  (∀ (s : State) (r : Scheme3Regs) (a : Addr), s.fatal = none → s.bank = .scheme3 r →
    r.latch = .armed →
    ∃ t r', exec (.s3WrLatch a 1) s = .next t ∧ t.bank = .scheme3 r' ∧
      r'.snap.seconds = r.live.seconds ∧ r'.snap.minutes = r.live.minutes ∧
      r'.snap.hours = r.live.hours ∧ r'.snap.dayLow = r.live.dayLow ∧
      r'.snap.dayHigh = r.live.dayHigh ∧ r'.live = r.live) ∧
  (∀ (s t : State) (r r' : Scheme3Regs), s.bank = .scheme3 r → t.bank = .scheme3 r' →
    step s = .next t → r'.snap ≠ r.snap →
    r.latch = .armed ∧ ∃ a, decode (fetchWord s) = .ok (.s3WrLatch a 1))

/-- No bus read shows a live counter or the prescaler: two states of a Scheme3 session that differ only in
them give every read, at any address, the same outcome (spec/10_state.md section 5, spec/43_rtc.md section
4). -/
def Obligations.LiveCountersNotReadable : Prop :=
  ∀ (s : State) (r : Scheme3Regs) (live' : RtcRegs) (sub' : Nat) (a : Addr), s.bank = .scheme3 r →
    ∃ t₁ t₂, transact (.read a) s = .next t₁ ∧
      transact (.read a) { s with bank := .scheme3 { r with live := live', rtcSub := sub' } } = .next t₂ ∧
      t₁.ports = t₂.ports

/-- RAM is memory (spec/20_memory.md section 5): through an open window of either scheme, a read after a write
returns the written byte at the same offset and the old byte at any other. -/
def Obligations.RamReadAfterWrite : Prop :=
  ∀ (s : State) (a b : Addr) (v : Byte) (n : BitVec 2), s.fatal = none → s.ram.wf →
    0xA000 ≤ a.toNat → a.toNat ≤ 0xBFFF → 0xA000 ≤ b.toNat → b.toNat ≤ 0xBFFF →
    n.toNat * 8192 + a.toNat % 8192 < s.session.ramSize →
    n.toNat * 8192 + b.toNat % 8192 < s.session.ramSize →
    ((∃ r, s.bank = .scheme1 r ∧ r.ramEnable = true ∧ r.mode = .ram ∧ r.ramBank = n) ∨
      (∃ r, s.bank = .scheme3 r ∧ r.enable = true ∧ r.select = .ramBank n)) →
    ∃ t, runScript [.write a v, .read b] s = .next t ∧
      t.ports.outcome =
        some (.data (if a = b then v else s.ram.read (n.toNat * 8192 + b.toNat % 8192)))

/-! ### The real-time clock -/

/-- The second advance (spec/43_rtc.md section 3, the spec's decision D14). From registers in normal use the
clock shows one second more, modulo 512 days, the carry flag is set on the overflow and otherwise kept,
and bits 6 to 1 of the flags byte are kept. From seconds other than 59 only the seconds change, modulo
256; from seconds 59 and minutes other than 59 the seconds go to 0 and only the minutes count, and from
59, 59 and hours other than 23 only the hours count, each modulo 256: a register beyond its normal range
is not corrected. -/
def Obligations.SecondAdvanceCountsOneSecond : Prop :=
  ∀ x : RtcRegs,
    (x.normal →
      (secondAdvance x).normal ∧ (secondAdvance x).time = (x.time + 1) % 44236800 ∧
      (secondAdvance x).carry = (x.carry || decide (x.time + 1 = 44236800)) ∧
      ∀ k, 1 ≤ k → k ≤ 6 → (secondAdvance x).dayHigh.getLsbD k = x.dayHigh.getLsbD k) ∧
    (x.seconds.toNat ≠ 59 →
      secondAdvance x = { x with seconds := BitVec.ofNat 8 ((x.seconds.toNat + 1) % 256) }) ∧
    (x.seconds.toNat = 59 → x.minutes.toNat ≠ 59 →
      secondAdvance x =
        { x with seconds := 0, minutes := BitVec.ofNat 8 ((x.minutes.toNat + 1) % 256) }) ∧
    (x.seconds.toNat = 59 → x.minutes.toNat = 59 → x.hours.toNat ≠ 23 →
      secondAdvance x =
        { x with seconds := 0, minutes := 0, hours := BitVec.ofNat 8 ((x.hours.toNat + 1) % 256) })

/-- `TMR`: the tick ends; the cycle counter goes up by one, the frame ends when it equals `MAIN_CYCLES`, and
under Scheme3 the prescaler runs unless the clock is halted, with a second advance at
`RTC_TICKS_PER_SECOND`. The RTC's place in the tick is the spec's decision D14. The strobe of the next
tick's first stage is raised with the step that enters it (log entry 2). -/
def Obligations.TimerStageEndsTick : Prop :=
  ∀ (s : State) (b : BankController), s.fatal = none → s.phase = .tmr →
    ((∀ r, s.bank ≠ .scheme3 r) ∧ b = s.bank ∨
      ∃ r, s.bank = .scheme3 r ∧
        (r.live.dayHigh.getLsbD 6 = true ∧ b = .scheme3 r ∨
         r.live.dayHigh.getLsbD 6 = false ∧ r.rtcSub + 1 = s.session.rtcTicksPerSecond ∧
           b = .scheme3 { r with rtcSub := 0, live := secondAdvance r.live } ∨
         r.live.dayHigh.getLsbD 6 = false ∧ r.rtcSub + 1 ≠ s.session.rtcTicksPerSecond ∧
           b = .scheme3 { r with rtcSub := r.rtcSub + 1 })) →
    exec .tmr s = .next { s with
      bank := b
      cycleCounter := s.cycleCounter + 1
      phase := if s.cycleCounter + 1 = s.session.mainCycles then .yield else .cpu
      ports :=
        { call := some .timerAdvance
          raised := if s.cycleCounter + 1 = s.session.mainCycles then [] else [.cpuAdvance] } }

/-- A halted clock stands (spec/43_rtc.md section 5, derived there): with the halt flag set and no transaction
issued, no number of steps changes any register of the Scheme3 group. -/
def Obligations.HaltedClockStands : Prop :=
  ∀ (n : Nat) (s t : State) (r : Scheme3Regs), s.bank = .scheme3 r →
    r.live.dayHigh.getLsbD 6 = true → s.events = [] → runSteps n s = .next t → t.bank = .scheme3 r

/-- The clock shows the elapsed seconds (spec/43_rtc.md section 5, derived there): from the registers session
start creates, `n * RTC_TICKS_PER_SECOND` ticks with no register write show `n` seconds in mixed radix with
the carry clear, for every `n` below 512 days; at 512 days it shows 0 with the carry set. -/
def Obligations.ClockShowsElapsedSeconds : Prop :=
  ∀ p : Nat, 1 ≤ p →
    (∀ n, n < 44236800 → ∀ r, r = (rtcTick p)^[n * p] Scheme3Regs.reset →
      r.live.seconds.toNat = n % 60 ∧ r.live.minutes.toNat = n / 60 % 60 ∧
      r.live.hours.toNat = n / 3600 % 24 ∧ r.live.day = n / 86400 ∧ r.live.carry = false ∧
      r.rtcSub = 0) ∧
    (∀ r, r = (rtcTick p)^[44236800 * p] Scheme3Regs.reset →
      r.live.time = 0 ∧ r.live.day = 0 ∧ r.live.carry = true ∧ r.rtcSub = 0)

/-! ### The scheduler -/

/-- `POLL`: input is polled, the cycle counter cleared, and the first stage is entered, its strobe raised. That
the events are not kept is the spec's decision D21; in which step a strobe shows is log entry 2. -/
def Obligations.PollStartsFrame : Prop :=
  ∀ s : State, s.fatal = none → s.phase = .poll →
    exec .poll s = .next { s with
      cycleCounter := 0
      phase := .cpu
      ports := { call := some .pollInput, raised := [.pollInput, .cpuAdvance] } }

/-- `CPU` and `DISP` when the stage call has returned: the next stage of the tick, its strobe raised, or
`STOPPED` with no strobe if a fatal record is present. In which step a strobe shows is log entry 2. -/
def Obligations.CpuAndDisplayStagesAdvance : Prop :=
  ∀ s : State,
    (s.phase = .cpu → exec .cpu s = .next { s with
      phase := if s.fatal = none then .disp else .stopped
      ports :=
        { call := some .cpuAdvance, raised := if s.fatal = none then [.displayAdvance] else [] } }) ∧
    (s.phase = .disp → exec .disp s = .next { s with
      phase := if s.fatal = none then .tmr else .stopped
      ports :=
        { call := some .displayAdvance, raised := if s.fatal = none then [.timerAdvance] else [] } }) ∧
    (s.phase = .tmr → s.fatal ≠ none → exec .tmr s = .next { s with
      phase := .stopped, ports := { call := some .timerAdvance } })

/-- `YIELD`: `frame_done`, then `STOPPED` if `exit_request` is 1 at this sample, else the next frame's `POLL`.
That this is the one sample is the spec's decision D28; how the level reaches the block is log entry 3. -/
def Obligations.YieldSamplesExit : Prop :=
  ∀ (s : State) (e : Bool) (rest : List Bool), s.fatal = none → s.phase = .yield →
    (s.exitLevels = e :: rest → exec .yield s = .next { s with
      phase := if e then .stopped else .poll, exitLevels := rest, ports := { call := some .frameDone } }) ∧
    (s.exitLevels = [] → exec .yield s = .next { s with
      phase := .poll, ports := { call := some .frameDone } })

/-- `STOPPED`: no call is made and no state changes; in this phase every step is that. The phase is the spec's
decision D26. -/
def Obligations.StoppedChangesNothing : Prop :=
  ∀ s : State, s.phase = .stopped →
    exec .stopped s = .next { s with ports := {} } ∧ step s = .next { s with ports := {} }

/-- A stage resolves its core's transactions one at a time and in order (spec/44_scheduler.md sections 3 and
4). That one transaction is one step, and the stage's end the step after the last, is the model's choice
(log entry 3). Steps agree with the script of the transactions. If none is fatal, after as many steps the block is
where the script leaves it, and the next step is the stage's end. If one is fatal, a step of the stage
stops the block with that record, the cycle counter as it was, and nothing changes any more. -/
def Obligations.StageRunsTransactionsInOrder : Prop :=
  ∀ (xs : List Access) (rest : List CoreEvent) (s t : State), s.phase.isStage = true →
    s.fatal = none → s.events = xs.map Access.event ++ .done :: rest →
    runScript xs { s with events := .done :: rest } = .next t →
    (t.fatal = none →
      runSteps xs.length s = .next t ∧ t.phase = s.phase ∧
      step t = exec (match s.phase with | .cpu => .cpu | .disp => .disp | _ => .tmr)
        { t with events := rest }) ∧
    (t.fatal ≠ none →
      ∃ k u, k ≤ xs.length ∧ runSteps k s = .next u ∧ u.phase = .stopped ∧ u.fatal = t.fatal ∧
        u.cycleCounter = s.cycleCounter ∧ u.bank = t.bank ∧ u.ram = t.ram ∧
        ∀ j, ∃ w, runSteps (k + j) s = .next w ∧ u.sameBlock w)

/-- A frame (spec/44_scheduler.md sections 2, 4 and 5), whatever transactions the cores issue in it. From `POLL`
the steps lead through stages only, the calls made at each point being those of the ticks the cycle
counter tells finished and of the stages entered since, in the order `CPU`, `DISP`, `TMR`. If no fatal
error is recorded the stages end in `YIELD`, after one poll and exactly `MAIN_CYCLES` calls of each
stage, with the counter at `MAIN_CYCLES`; then `frame_done` and the next `POLL`, or `STOPPED` on an exit
request. If one is recorded they end in `STOPPED`, the counter as it was and the call of the stage it
fell in made. If the cores issue nothing, each stage is one step. The list of events and the step in
which a strobe shows are the model's choice (log entries 3 and 2). -/
def Obligations.FrameIsMainCyclesTicks : Prop :=
  ∀ (s : State) (m : Nat), s.Inv → s.phase = .poll → m = s.session.mainCycles →
    (∃ n t, runSteps n s = .next t ∧
      (∀ k u, 0 < k → k < n → runSteps k s = .next u →
        ∃ j, j < 3 ∧ u.phase = stageAt j ∧ u.fatal = none ∧ u.cycleCounter < m ∧
          strobesIn k s = (frameCalls m).take (2 + 3 * u.cycleCounter + j)) ∧
      (t.fatal = none →
        t.phase = .yield ∧ t.cycleCounter = m ∧ strobesIn n s = frameCalls m ∧
        ∃ u, runSteps (n + 1) s = .next u ∧ u.ports.call = some .frameDone ∧
          u.phase = if s.exitLevels.headD false then .stopped else .poll) ∧
      (t.fatal ≠ none →
        t.phase = .stopped ∧ t.cycleCounter < m ∧
        ∃ j, j < 3 ∧ strobesIn n s = (frameCalls m).take (2 + 3 * t.cycleCounter + j))) ∧
    (s.events = [] →
      (∀ j, j < 3 * m → ∃ t, runSteps (1 + j) s = .next t ∧
        t.phase = stageAt (j % 3) ∧ t.cycleCounter = j / 3) ∧
      (∃ t, runSteps (1 + 3 * m) s = .next t ∧ t.phase = .yield ∧ t.cycleCounter = m) ∧
      (∃ t, runSteps (2 + 3 * m) s = .next t ∧
        t.phase = if s.exitLevels.headD false then .stopped else .poll))

/-- The order of the phases (spec/44_scheduler.md section 4): from any state without a fatal record a step goes
only where the loop goes; within a stage a transaction stays in the stage or stops the block. The strobe
of a stage is raised in the step that enters the stage, that of the poll in `POLL`, and by no other step
(spec/00_scope.md section 5; in which step a strobe shows is log entry 2). -/
def Obligations.PhasesFollowTheLoop : Prop :=
  ∀ s t : State, s.fatal = none → step s = .next t →
    (∀ w, fetchWord s = .bus w →
      t.ports.raised = [] ∧ (t.phase = s.phase ∨ t.phase = .stopped ∧ t.fatal ≠ none)) ∧
    (∀ c, fetchWord s = .phase c →
      match s.phase with
      | .poll => t.phase = .cpu ∧ t.ports.raised = [.pollInput, .cpuAdvance]
      | .cpu => t.phase = .disp ∧ t.ports.raised = [.displayAdvance]
      | .disp => t.phase = .tmr ∧ t.ports.raised = [.timerAdvance]
      | .tmr =>
        t.phase = .cpu ∧ t.ports.raised = [.cpuAdvance] ∨ t.phase = .yield ∧ t.ports.raised = []
      | .yield => (t.phase = .poll ∨ t.phase = .stopped) ∧ t.ports.raised = []
      | .stopped => t.phase = .stopped ∧ t.ports.raised = [])

/-! ### Errors -/

/-- Fatal entry (spec/60_exceptions.md section 4): whichever transaction raises the first fatal error, the
record carries the code, the address, the written value (0x00 for a read) and the active scheme, the
sequencer stops, and nothing else changes. That the record is sticky is the spec's decision D26. -/
def Obligations.FatalEntryIsPrecise : Prop :=
  ∀ (i : Instr) (w : BusWord) (s t : State) (f : ErrorRecord), encode i = .bus w → s.fatal = none →
    exec i s = .next t → t.fatal = some f →
    t = { s with fatal := some f, phase := .stopped, ports := { outcome := some (.fatal f) } } ∧
    f.addr = fieldA w ∧ f.value = fieldD w ∧ f.scheme = s.scheme ∧
    (f.error = .unmappedAddress ∧ s.scheme = .none ∨ f.error = .offsetOutOfRange)

/-- While a fatal record is present every transaction is refused, with no outcome and no state change,
and, in a state of the invariant, no phase runs: for any number of steps nothing changes, so the first
record is the one kept. The sticky record is the spec's decision D26. -/
def Obligations.FatalRefusesEverything : Prop :=
  ∀ (s : State) (f : ErrorRecord), s.fatal = some f →
    (∀ i, i.isBus = true → exec i s = .next { s with ports := {} }) ∧
    (s.Inv → ∀ n, ∃ t, runSteps n s = .next t ∧ s.sameBlock t ∧ (0 < n → t.ports = {}))

/-- `UnsupportedScheme`: after the session start of any valid launch of an unsupported scheme the
record is present and the phase is `STOPPED`, and for any inputs and any number of steps it stays so. -/
def Obligations.UnsupportedSchemeNeverRuns : Prop :=
  ∀ (l : Launch) (s : State) (evs : List CoreEvent) (exits : List Bool) (n : Nat),
    l.scheme = .unsupported → sessionStart l = some s →
    s.phase = .stopped ∧
    s.fatal = some { error := .unsupportedScheme, addr := 0, value := 0, scheme := .unsupported } ∧
    ∃ t, runSteps n { s with events := evs, exitLevels := exits } = .next t ∧ s.sameBlock t

/-- Progress: in every state of the invariant a step answers a next state; the machine never refuses and
never faults (spec/44_scheduler.md section 5 and the totality of the decode, spec/30_encoding.md section
3, both derived there). -/
def Obligations.EveryLegalStateHasNext : Prop :=
  ∀ s : State, s.Inv → ∃ t, step s = .next t

/-! ### Whole-machine rules -/

/-- A read never changes the block's state, at any address, under any scheme; a fatal read writes the fatal
record and stops the sequencer, with `UnmappedAddress` or `OffsetOutOfRange` (spec/20_memory.md section
4). -/
def Obligations.ReadsChangeNothing : Prop :=
  ∀ (s t : State) (a : Addr), transact (.read a) s = .next t →
    s.sameBlock t ∨ t = s.stoppedBy .unmappedAddress a 0 ∨ t = s.stoppedBy .offsetOutOfRange a 0

/-- The frame of RAM, for every operation: a byte of RAM changes only in `S1.WR.XRAM` with the gate open or in
`S3.WR.X` with the gate open and a RAM bank selected, only at the offset the window translates the
address to, and only to the written byte (spec/41_scheme1.md section 4, spec/10_state.md section 3). -/
def Obligations.RamChangesOnlyAtTranslatedOffset : Prop :=
  ∀ (i : Instr) (s t : State) (x : Nat), s.ram.wf → exec i s = .next t → t.ram.read x ≠ s.ram.read x →
    ∃ (a : Addr) (v : Byte), t.ram.read x = v ∧ x < s.session.ramSize ∧
      ((i = .s1WrXram a v ∧ ∃ r, s.bank = .scheme1 r ∧ r.ramEnable = true ∧ r.mode = .ram ∧
          x = r.ramBank.toNat * 8192 + a.toNat % 8192) ∨
       (i = .s3WrX a v ∧ ∃ r n, s.bank = .scheme3 r ∧ r.enable = true ∧ r.select = .ramBank n ∧
          x = n.toNat * 8192 + a.toNat % 8192))

/-- The frame of the Scheme1 registers, for every operation: each field changes only in the operation its
entry in spec/10_state.md section 4 names. -/
def Obligations.Scheme1RegistersWrittenByTheirOperation : Prop :=
  ∀ (i : Instr) (s t : State) (r : Scheme1Regs), s.bank = .scheme1 r → exec i s = .next t →
    ∃ r', t.bank = .scheme1 r' ∧
      (r'.ramEnable ≠ r.ramEnable → ∃ a v, i = .s1WrRamen a v) ∧
      (r'.romLo ≠ r.romLo → ∃ a v, i = .s1WrRomlo a v) ∧
      (r'.romHi ≠ r.romHi → r.mode = .rom ∧ ∃ a v, i = .s1WrUpper a v) ∧
      (r'.ramBank ≠ r.ramBank → r.mode = .ram ∧ ∃ a v, i = .s1WrUpper a v) ∧
      (r'.mode ≠ r.mode → ∃ a v, i = .s1WrMode a v)

/-- The frame of the Scheme3 registers, for every operation: each changes only in the operation its entry in
spec/10_state.md section 5 names; the live counters only in an RTC write or at the end of a tick, the
prescaler only at the end of a tick. -/
def Obligations.Scheme3RegistersWrittenByTheirOperation : Prop :=
  ∀ (i : Instr) (s t : State) (r : Scheme3Regs), s.bank = .scheme3 r → exec i s = .next t →
    ∃ r', t.bank = .scheme3 r' ∧
      (r'.enable ≠ r.enable → ∃ a v, i = .s3WrEn a v) ∧
      (r'.romBank ≠ r.romBank → ∃ a v, i = .s3WrRomb a v) ∧
      (r'.select ≠ r.select → ∃ a v, i = .s3WrSel a v) ∧
      (r'.latch ≠ r.latch → ∃ a v, i = .s3WrLatch a v) ∧
      (r'.snap ≠ r.snap → ∃ a, i = .s3WrLatch a 1) ∧
      (r'.live ≠ r.live → i = .tmr ∨ ∃ a v x, i = .s3WrX a v ∧ r.enable = true ∧ r.select = .rtc x) ∧
      (r'.rtcSub ≠ r.rtcSub → i = .tmr)

/-- The frame of the scheduler and the error record, for every operation: a transaction never moves the cycle
counter, and moves the phase only into `STOPPED` together with the first fatal record; a phase never
touches RAM or the fatal record; the cycle counter changes only in `POLL` and `TMR` (spec/10_state.md
sections 6, 7 and 9); and a record once present is never changed, which is the spec's decision D26. Of
the model's own inputs (log entry 3) the exit levels are taken in `YIELD` only, and no operation itself
takes an event. -/
def Obligations.SchedulerAndErrorFrame : Prop :=
  ∀ (i : Instr) (s t : State), exec i s = .next t →
    (t.cycleCounter ≠ s.cycleCounter → i = .poll ∨ i = .tmr) ∧
    (i.isBus = true → t.phase ≠ s.phase → t.phase = .stopped ∧ s.fatal = none ∧ t.fatal ≠ none) ∧
    (i.isBus = false → t.ram = s.ram ∧ t.fatal = s.fatal) ∧
    (s.fatal ≠ none → t.fatal = s.fatal) ∧
    (t.exitLevels ≠ s.exitLevels → i = .yield) ∧ t.events = s.events

/-- The launch inputs are fixed (spec/00_scope.md section 4): no step changes the scheme, the ROM image, its
length, `RAM_SIZE` or a parameter. -/
def Obligations.LaunchInputsNeverChange : Prop :=
  ∀ s t : State, step s = .next t → t.session = s.session ∧ t.scheme = s.scheme

/-! ### Session start and invariants -/

/-- Session start (spec/70_reset_and_hazards.md section 1): the state it builds from a valid launch, register
by register, and no state from a launch that breaks the premises. The spec says the latter of `ROM_LEN`;
that it holds of the other constraints on the launch inputs (spec/00_scope.md section 4) is log entry 14,
and the canonical form of the images is log entry 4. Every reset value but `rom_bank = 1`
and `ram_bank = 0` is the spec's decision D17, D14, D18 or D26; the last four fields are the model's view
of the environment (log entries 2, 3, 6). -/
def Obligations.SessionStartBuildsState : Prop :=
  ∀ l : Launch,
    (l.valid → ∃ s, sessionStart l = some s ∧ s.session = l.session ∧ s.ram = l.ramInit ∧
      s.cycleCounter = 0 ∧ s.events = [] ∧ s.exitLevels = [] ∧ s.ports = {} ∧ s.oracleCount = 0 ∧
      (l.scheme = .none → s.bank = .noController ∧ s.phase = .poll ∧ s.fatal = none) ∧
      (l.scheme = .scheme1 → s.phase = .poll ∧ s.fatal = none ∧
        ∃ r, s.bank = .scheme1 r ∧ r.ramEnable = false ∧ r.romBank = 1 ∧ r.romHi = 0 ∧ r.romLo = 1 ∧
          r.ramBank = 0 ∧ r.mode = .rom) ∧
      (l.scheme = .scheme3 → s.phase = .poll ∧ s.fatal = none ∧
        ∃ r, s.bank = .scheme3 r ∧ r.enable = false ∧ r.romBank = 1 ∧ r.select = .ramBank 0 ∧
          r.latch = .idle ∧ r.live = ⟨0, 0, 0, 0, 0⟩ ∧ r.snap = ⟨0, 0, 0, 0, 0⟩ ∧ r.rtcSub = 0) ∧
      (l.scheme = .unsupported → s.bank = .unsupported ∧ s.phase = .stopped ∧
        s.fatal = some ⟨.unsupportedScheme, 0, 0, .unsupported⟩)) ∧
    (¬ l.valid → sessionStart l = none)

/-- `State.reset` is the session start of the launch the model names (log entry 5). -/
def Obligations.ResetIsASessionStart : Prop := sessionStart Launch.plain = some State.reset

/-- The invariant holds after the session start of every valid launch, of every scheme, whatever the cores and
the host do next (the base case of spec/10_state.md section 9); and so in `State.reset`, the session
start of the launch of log entry 5. The lists of inputs are log entry 3. -/
def Obligations.ResetIsLegal : Prop :=
  (∀ (l : Launch) (s : State) (evs : List CoreEvent) (exits : List Bool),
    sessionStart l = some s → State.Inv { s with events := evs, exitLevels := exits }) ∧
  State.reset.Inv

/-- Every step from a state of the invariant leads to a state of the invariant: the bank registers never hold
0, the counters stay in their bounds and tell the phase, RAM keeps its canonical form and its length, a
fatal record means a stopped sequencer (spec/10_state.md section 9). -/
def Obligations.StepKeepsInvariant : Prop := ∀ s t : State, s.Inv → step s = .next t → t.Inv

/-- In every state reachable from the session start of any valid launch, whatever the external cores issue
and the host signals, the invariants (a) to (f) of spec/10_state.md section 9 hold (derived there). -/
def Obligations.ReachableStatesAreLegal : Prop :=
  ∀ (l : Launch) (s t : State) (evs : List CoreEvent) (exits : List Bool) (n : Nat),
    sessionStart l = some s → runSteps n { s with events := evs, exitLevels := exits } = .next t →
    (∀ r, t.bank = .scheme1 r → 1 ≤ r.romLo.toNat ∧ r.romLo.toNat ≤ 31 ∧
      1 ≤ r.romBank.toNat ∧ r.romBank.toNat ≤ 127 ∧ r.ramBank.toNat ≤ 3) ∧
    (∀ r, t.bank = .scheme3 r → 1 ≤ r.romBank.toNat ∧ r.romBank.toNat ≤ 127 ∧
      r.rtcSub < l.session.rtcTicksPerSecond) ∧
    t.cycleCounter ≤ l.session.mainCycles ∧
    (∀ c ∈ t.ram, c.1 < l.session.ramSize) ∧ t.session = l.session ∧ t.scheme = l.scheme
end

