-- ==== Sys2Proof/Laws/Decode.lean ====
section
/-! SUPPORT. Laws of the decoder: the fields of `transaction`, and the row of a word, which depends on its
top six bits alone ("every range is selected by the top three address bits", R45). -/

namespace Sys2Proof

@[simp] theorem Scheme.ofTag_tag (sch : Scheme) : Scheme.ofTag sch.tag = sch := by cases sch <;> rfl

@[simp] theorem Dir.ofBit_bit (w : Dir) : Dir.ofBit w.bit = w := by cases w <;> rfl

theorem Scheme.tag_eq_reserved {sch : Scheme} : sch.tag = 0b10 ↔ sch = .unsupported := by
  cases sch <;> decide

section Fields

variable (sch : Scheme) (w : Dir) (a : Addr) (d : Byte)

/-- Bit `k` of `T = {S, W, A, D}`. -/
theorem transaction_getLsbD (k : Nat) :
    (transaction sch w a d).getLsbD k =
      if k < 8 then d.getLsbD k
      else if k < 24 then a.getLsbD (k - 8)
      else if k < 25 then w.bit.getLsbD (k - 24)
      else sch.tag.getLsbD (k - 25) := by
  simp only [transaction, BitVec.getLsbD_append]
  by_cases h8 : k < 8
  · simp [h8]
  · by_cases h24 : k < 24
    · simp [h8, h24, show k - 8 < 16 by omega]
    · by_cases h25 : k < 25
      · obtain rfl : k = 24 := by omega
        simp
      · simp [h8, h24, h25, show ¬ k - 8 < 16 by omega, show ¬ k - 8 - 16 < 1 by omega,
          show k - 8 - 16 - 1 = k - 25 by omega]

@[simp] theorem fieldD_transaction : fieldD (transaction sch w a d) = d := by
  apply BitVec.eq_of_getLsbD_eq
  intro i hi
  simp only [fieldD, BitVec.getLsbD_extractLsb, transaction_getLsbD, Nat.zero_add]
  rw [if_pos (by omega)]
  simp; omega

@[simp] theorem fieldA_transaction : fieldA (transaction sch w a d) = a := by
  apply BitVec.eq_of_getLsbD_eq
  intro i hi
  simp only [fieldA, BitVec.getLsbD_extractLsb, transaction_getLsbD]
  rw [if_neg (by omega), if_pos (by omega)]
  simp; omega

@[simp] theorem fieldW_transaction : fieldW (transaction sch w a d) = w.bit := by
  apply BitVec.eq_of_getLsbD_eq
  intro i hi
  simp only [fieldW, BitVec.getLsbD_extractLsb, transaction_getLsbD]
  rw [if_neg (by omega), if_neg (by omega), if_pos (by omega)]
  simp; omega

@[simp] theorem fieldS_transaction : fieldS (transaction sch w a d) = sch.tag := by
  apply BitVec.eq_of_getLsbD_eq
  intro i hi
  simp only [fieldS, BitVec.getLsbD_extractLsb, transaction_getLsbD]
  rw [if_neg (by omega), if_neg (by omega), if_neg (by omega)]
  simp; omega

end Fields

/-- The top six bits of `T`: `S`, `W` and `A[15:13]`. -/
def headBits (t : BusWord) : BitVec 6 := t.extractLsb 26 21

/-- A row's match and mask on the top six bits. -/
def BusRow.headHits (r : BusRow) (x : BitVec 6) : Bool :=
  x &&& headBits r.pattern.2 == headBits r.pattern.1

/-- No row tests a bit below the top six. -/
theorem BusRow.low_bits_free (r : BusRow) (k : Nat) (hk : k < 21) :
    r.pattern.2.getLsbD k = false ∧ r.pattern.1.getLsbD k = false := by
  have h : ∀ k : Fin 21, r.pattern.2.getLsbD k = false ∧ r.pattern.1.getLsbD k = false := by
    cases r <;> decide
  exact h ⟨k, hk⟩

/-- Whether a row matches is decided by the top six bits. -/
theorem BusRow.hits_eq_headHits (r : BusRow) (t : BusWord) : r.hits t = r.headHits (headBits t) := by
  unfold BusRow.hits BusRow.headHits
  rw [Bool.eq_iff_iff, beq_iff_eq, beq_iff_eq]
  constructor
  · intro h
    rw [← h]
    simp only [headBits]
    apply BitVec.eq_of_getLsbD_eq
    intro i hi
    have h5 : i ≤ 5 := by omega
    simp [h5]
  · intro h
    apply BitVec.eq_of_getLsbD_eq
    intro k hk
    by_cases h21 : k < 21
    · simp [r.low_bits_free k h21]
    · have h6 : k - 21 < 6 := by omega
      have := congrArg (fun x => x.getLsbD (k - 21)) h
      simp only [headBits, BitVec.getLsbD_and, BitVec.getLsbD_extractLsb,
        show 21 + (k - 21) = k by omega] at this
      simpa [h6] using this

/-- The row of a word, from its top six bits. -/
def rowOfHead (x : BitVec 6) : Option BusRow := BusRow.all.find? (·.headHits x)

theorem rowOf_eq_rowOfHead (t : BusWord) : rowOf t = rowOfHead (headBits t) := by
  unfold rowOf rowOfHead
  congr 1
  funext r
  exact r.hits_eq_headHits t

/-- The top six bits of `T = {S, W, A, D}`. -/
theorem headBits_transaction (sch : Scheme) (w : Dir) (a : Addr) (d : Byte) :
    headBits (transaction sch w a d) = sch.tag ++ w.bit ++ a.extractLsb 15 13 := by
  apply BitVec.eq_of_getLsbD_eq
  intro i hi
  simp only [headBits, BitVec.getLsbD_extractLsb, transaction_getLsbD, BitVec.getLsbD_append]
  rcases (show i = 0 ∨ i = 1 ∨ i = 2 ∨ i = 3 ∨ i = 4 ∨ i = 5 by omega) with
    rfl | rfl | rfl | rfl | rfl | rfl <;> simp

/-- `A[15:13]`, as a number, is `A` divided by 0x2000. -/
theorem toNat_rangeSelect (a : Addr) : (a.extractLsb 15 13).toNat = a.toNat / 8192 := by
  have := a.isLt
  simp only [BitVec.extractLsb_toNat, Nat.shiftRight_eq_div_pow]
  omega

end Sys2Proof
end

