-- ==== Sys2Proof/Laws/Memory.lean ====
section
/-! SUPPORT. The laws of an image: read after write, the canonical form is kept, and it is canonical: two
images in the form that read alike are equal. -/

namespace Sys2Proof.Machine

@[simp] theorem Memory.read_nil (a : Nat) : Memory.read [] a = unlistedByte := rfl

@[simp] theorem Memory.read_cons (c : Host.Cell) (m : Memory) (a : Nat) :
    Memory.read (c :: m) a = if c.1 = a then c.2 else Memory.read m a := rfl

/-- An offset that no cell lists reads as the unlisted byte. -/
theorem Memory.read_of_not_listed {m : Memory} {a : Nat} (h : ∀ c ∈ m, c.1 ≠ a) :
    m.read a = unlistedByte := by
  induction m with
  | nil => rfl
  | cons c m ih =>
    rw [Memory.read_cons, if_neg (h c (by simp))]
    exact ih fun d hd => h d (by simp [hd])

theorem Memory.read_put (a : Nat) (b : Byte) (m : Memory) (x : Nat)
    (h : ∀ c ∈ m, c.1 ≠ a) : (Memory.put a b m).read x = if a = x then b else m.read x := by
  unfold Memory.put
  split
  · next hb =>
    split
    · next hx => subst hx; rw [Memory.read_of_not_listed h, hb]
    · rfl
  · rfl

/-- Reading after a write in a canonical image. -/
theorem Memory.read_write {m : Memory} (h : m.wf) (a : Nat) (b : Byte) (x : Nat) :
    (m.write a b).read x = if a = x then b else m.read x := by
  induction m with
  | nil => exact Memory.read_put a b [] x (by simp)
  | cons c m ih =>
    obtain ⟨hp, hu⟩ := h
    rw [List.pairwise_cons] at hp
    unfold Memory.write
    split
    · next hlt =>
      refine Memory.read_put a b _ x fun d hd => ?_
      rcases List.mem_cons.1 hd with rfl | hd
      · omega
      · have := hp.1 d hd; omega
    · split
      · next hge heq =>
        rw [Memory.read_put a b m x fun d hd => by have := hp.1 d hd; omega, Memory.read_cons]
        subst heq
        by_cases hx : c.1 = x <;> simp [hx]
      · next hne =>
        rw [Memory.read_cons, Memory.read_cons, ih ⟨hp.2, fun d hd => hu d (by simp [hd])⟩]
        by_cases hx : a = x
        · subst hx
          have hca : c.1 ≠ a := fun h => hne h.symm
          simp [hca]
        · simp [hx]

/-- A cell of a written image is an old one or the written one. -/
theorem Memory.mem_write {m : Memory} {a : Nat} {b : Byte} {c : Host.Cell} (h : c ∈ m.write a b) :
    c ∈ m ∨ (c = (a, b) ∧ b ≠ unlistedByte) := by
  have hput : ∀ {rest : Memory}, c ∈ Memory.put a b rest → c ∈ rest ∨ (c = (a, b) ∧ b ≠ unlistedByte) := by
    intro rest h
    unfold Memory.put at h
    split at h
    · exact .inl h
    · next hb => rcases List.mem_cons.1 h with rfl | h
                 · exact .inr ⟨rfl, hb⟩
                 · exact .inl h
  induction m with
  | nil => exact hput h
  | cons d m ih =>
    unfold Memory.write at h
    split at h
    · exact hput h
    · split at h
      · exact (hput h).imp_left fun h => by simp [h]
      · rcases List.mem_cons.1 h with rfl | h
        · exact .inl (by simp)
        · exact (ih h).imp_left fun h => by simp [h]

theorem Memory.put_wf {a : Nat} {b : Byte} {m : Memory} (h : m.wf) (hlt : ∀ c ∈ m, a < c.1) :
    (Memory.put a b m).wf := by
  unfold Memory.put
  split
  · exact h
  · next hb => exact ⟨List.pairwise_cons.2 ⟨hlt, h.1⟩, List.forall_mem_cons.2 ⟨hb, h.2⟩⟩

/-- A write keeps the canonical form. -/
theorem Memory.write_wf {m : Memory} (h : m.wf) (a : Nat) (b : Byte) : (m.write a b).wf := by
  induction m with
  | nil => exact Memory.put_wf h (by simp)
  | cons c m ih =>
    have hm : Memory.wf m := ⟨(List.pairwise_cons.1 h.1).2, fun d hd => h.2 d (by simp [hd])⟩
    have hlt := (List.pairwise_cons.1 h.1).1
    unfold Memory.write
    split
    · next hac =>
      refine Memory.put_wf h (List.forall_mem_cons.2 ⟨hac, fun d hd => ?_⟩)
      have := hlt d hd; omega
    · split
      · next heq => subst heq; exact Memory.put_wf hm hlt
      · next hge hne =>
        refine ⟨List.pairwise_cons.2 ⟨fun d hd => ?_, (ih hm).1⟩,
          List.forall_mem_cons.2 ⟨h.2 c (by simp), (ih hm).2⟩⟩
        rcases Memory.mem_write hd with hd | ⟨rfl, -⟩
        · exact hlt d hd
        · simp only; omega

/-- A write inside an image keeps it inside. -/
theorem Memory.write_fits {m : Memory} {n : Nat} (h : m.fits n) {a : Nat} (ha : a < n) (b : Byte) :
    (m.write a b).fits n := by
  intro c hc
  rcases Memory.mem_write hc with hc | ⟨rfl, -⟩
  · exact h c hc
  · exact ha

/-- An offset of a canonical image reads as something else than the unlisted byte exactly if it is listed. -/
theorem Memory.mem_of_read {m : Memory} (h : m.wf) (a : Nat) (b : Byte) :
    (a, b) ∈ m ↔ m.read a = b ∧ b ≠ unlistedByte := by
  induction m with
  | nil => simp [eq_comm]
  | cons c m ih =>
    have hm : Memory.wf m := ⟨(List.pairwise_cons.1 h.1).2, fun d hd => h.2 d (by simp [hd])⟩
    have hlt := (List.pairwise_cons.1 h.1).1
    have hc := h.2 c (by simp)
    rw [List.mem_cons, ih hm, Memory.read_cons]
    by_cases hca : c.1 = a
    · subst hca
      have hnot : Memory.read m c.1 = unlistedByte :=
        Memory.read_of_not_listed fun d hd => by have := hlt d hd; omega
      simp only [if_true, hnot]
      constructor
      · rintro (h1 | ⟨h1, h2⟩)
        · have := congrArg Prod.snd h1; simp only at this; exact ⟨this.symm, this ▸ hc⟩
        · exact absurd h1.symm h2
      · rintro ⟨h1, -⟩; exact .inl (by rw [← h1])
    · have : (a, b) ≠ c := fun h => hca (by rw [← h])
      simp [hca, this]

/-- Equal memories are equal data. -/
theorem Memory.ext_of_read {m n : Memory} (hm : m.wf) (hn : n.wf) (h : ∀ a, m.read a = n.read a) :
    m = n := by
  have hmem : ∀ c, c ∈ m ↔ c ∈ n := fun c => by
    rw [show c = (c.1, c.2) from rfl, Memory.mem_of_read hm, Memory.mem_of_read hn, h]
  have nd : ∀ {l : Memory}, l.wf → l.Nodup := fun hl =>
    hl.1.imp fun {x y} hxy heq => by rw [heq] at hxy; exact Nat.lt_irrefl _ hxy
  refine List.Perm.eq_of_pairwise (le := fun c d : Host.Cell => c.1 < d.1)
    (fun a b _ _ h1 h2 => absurd (Nat.lt_trans h1 h2) (Nat.lt_irrefl _)) hm.1 hn.1
    ((List.perm_ext_iff_of_nodup (nd hm) (nd hn)).2 hmem)

/-- Images that read alike below a size, and have nothing listed beyond it, read alike. -/
theorem Memory.read_of_fits {m : Memory} {n a : Nat} (h : m.fits n) (ha : n ≤ a) :
    m.read a = unlistedByte :=
  Memory.read_of_not_listed fun c hc => by have := h c hc; omega

end Sys2Proof.Machine
end

