-- ==== Sys2Proof/Laws/State.lean ====
section
/-! SUPPORT. One lemma per field of `State` per named update, so that no proof unfolds a record update. -/

namespace Sys2Proof.Machine

/-! ### `State.answer` -/

@[simp] theorem State.answer_session (s : State) (o : BusOutcome) :
    (s.answer o).session = s.session := rfl

@[simp] theorem State.answer_bank (s : State) (o : BusOutcome) :
    (s.answer o).bank = s.bank := rfl

@[simp] theorem State.answer_ram (s : State) (o : BusOutcome) :
    (s.answer o).ram = s.ram := rfl

@[simp] theorem State.answer_phase (s : State) (o : BusOutcome) :
    (s.answer o).phase = s.phase := rfl

@[simp] theorem State.answer_cycleCounter (s : State) (o : BusOutcome) :
    (s.answer o).cycleCounter = s.cycleCounter := rfl

@[simp] theorem State.answer_fatal (s : State) (o : BusOutcome) :
    (s.answer o).fatal = s.fatal := rfl

@[simp] theorem State.answer_events (s : State) (o : BusOutcome) :
    (s.answer o).events = s.events := rfl

@[simp] theorem State.answer_exitLevels (s : State) (o : BusOutcome) :
    (s.answer o).exitLevels = s.exitLevels := rfl

@[simp] theorem State.answer_ports (s : State) (o : BusOutcome) :
    (s.answer o).ports = { outcome := some o } := rfl

@[simp] theorem State.answer_oracleCount (s : State) (o : BusOutcome) :
    (s.answer o).oracleCount = s.oracleCount := rfl

@[simp] theorem State.answer_scheme (s : State) (o : BusOutcome) :
    (s.answer o).scheme = s.scheme := rfl

/-! ### `State.silent` -/

@[simp] theorem State.silent_session (s : State) :
    s.silent.session = s.session := rfl

@[simp] theorem State.silent_bank (s : State) :
    s.silent.bank = s.bank := rfl

@[simp] theorem State.silent_ram (s : State) :
    s.silent.ram = s.ram := rfl

@[simp] theorem State.silent_phase (s : State) :
    s.silent.phase = s.phase := rfl

@[simp] theorem State.silent_cycleCounter (s : State) :
    s.silent.cycleCounter = s.cycleCounter := rfl

@[simp] theorem State.silent_fatal (s : State) :
    s.silent.fatal = s.fatal := rfl

@[simp] theorem State.silent_events (s : State) :
    s.silent.events = s.events := rfl

@[simp] theorem State.silent_exitLevels (s : State) :
    s.silent.exitLevels = s.exitLevels := rfl

@[simp] theorem State.silent_ports (s : State) :
    s.silent.ports = {} := rfl

@[simp] theorem State.silent_oracleCount (s : State) :
    s.silent.oracleCount = s.oracleCount := rfl

@[simp] theorem State.silent_scheme (s : State) :
    s.silent.scheme = s.scheme := rfl

/-! ### `State.setBank` -/

@[simp] theorem State.setBank_session (s : State) (b : BankController) :
    (s.setBank b).session = s.session := rfl

@[simp] theorem State.setBank_bank (s : State) (b : BankController) :
    (s.setBank b).bank = b := rfl

@[simp] theorem State.setBank_ram (s : State) (b : BankController) :
    (s.setBank b).ram = s.ram := rfl

@[simp] theorem State.setBank_phase (s : State) (b : BankController) :
    (s.setBank b).phase = s.phase := rfl

@[simp] theorem State.setBank_cycleCounter (s : State) (b : BankController) :
    (s.setBank b).cycleCounter = s.cycleCounter := rfl

@[simp] theorem State.setBank_fatal (s : State) (b : BankController) :
    (s.setBank b).fatal = s.fatal := rfl

@[simp] theorem State.setBank_events (s : State) (b : BankController) :
    (s.setBank b).events = s.events := rfl

@[simp] theorem State.setBank_exitLevels (s : State) (b : BankController) :
    (s.setBank b).exitLevels = s.exitLevels := rfl

@[simp] theorem State.setBank_ports (s : State) (b : BankController) :
    (s.setBank b).ports = s.ports := rfl

@[simp] theorem State.setBank_oracleCount (s : State) (b : BankController) :
    (s.setBank b).oracleCount = s.oracleCount := rfl

@[simp] theorem State.setBank_scheme (s : State) (b : BankController) :
    (s.setBank b).scheme = b.scheme := rfl

/-! ### `State.storeRam` -/

@[simp] theorem State.storeRam_session (s : State) (off : Nat) (v : Byte) :
    (s.storeRam off v).session = s.session := rfl

@[simp] theorem State.storeRam_bank (s : State) (off : Nat) (v : Byte) :
    (s.storeRam off v).bank = s.bank := rfl

@[simp] theorem State.storeRam_ram (s : State) (off : Nat) (v : Byte) :
    (s.storeRam off v).ram = s.ram.write off v := rfl

@[simp] theorem State.storeRam_phase (s : State) (off : Nat) (v : Byte) :
    (s.storeRam off v).phase = s.phase := rfl

@[simp] theorem State.storeRam_cycleCounter (s : State) (off : Nat) (v : Byte) :
    (s.storeRam off v).cycleCounter = s.cycleCounter := rfl

@[simp] theorem State.storeRam_fatal (s : State) (off : Nat) (v : Byte) :
    (s.storeRam off v).fatal = s.fatal := rfl

@[simp] theorem State.storeRam_events (s : State) (off : Nat) (v : Byte) :
    (s.storeRam off v).events = s.events := rfl

@[simp] theorem State.storeRam_exitLevels (s : State) (off : Nat) (v : Byte) :
    (s.storeRam off v).exitLevels = s.exitLevels := rfl

@[simp] theorem State.storeRam_ports (s : State) (off : Nat) (v : Byte) :
    (s.storeRam off v).ports = s.ports := rfl

@[simp] theorem State.storeRam_oracleCount (s : State) (off : Nat) (v : Byte) :
    (s.storeRam off v).oracleCount = s.oracleCount := rfl

@[simp] theorem State.storeRam_scheme (s : State) (off : Nat) (v : Byte) :
    (s.storeRam off v).scheme = s.scheme := rfl

/-! ### `fatalEntry` -/

@[simp] theorem fatalEntry_session (e : ErrorKind) (a : Addr) (v : Byte) (s : State) :
    (fatalEntry e a v s).session = s.session := rfl

@[simp] theorem fatalEntry_bank (e : ErrorKind) (a : Addr) (v : Byte) (s : State) :
    (fatalEntry e a v s).bank = s.bank := rfl

@[simp] theorem fatalEntry_ram (e : ErrorKind) (a : Addr) (v : Byte) (s : State) :
    (fatalEntry e a v s).ram = s.ram := rfl

@[simp] theorem fatalEntry_phase (e : ErrorKind) (a : Addr) (v : Byte) (s : State) :
    (fatalEntry e a v s).phase = .stopped := rfl

@[simp] theorem fatalEntry_cycleCounter (e : ErrorKind) (a : Addr) (v : Byte) (s : State) :
    (fatalEntry e a v s).cycleCounter = s.cycleCounter := rfl

@[simp] theorem fatalEntry_fatal (e : ErrorKind) (a : Addr) (v : Byte) (s : State) :
    (fatalEntry e a v s).fatal = some ⟨e, a, v, s.scheme⟩ := rfl

@[simp] theorem fatalEntry_events (e : ErrorKind) (a : Addr) (v : Byte) (s : State) :
    (fatalEntry e a v s).events = s.events := rfl

@[simp] theorem fatalEntry_exitLevels (e : ErrorKind) (a : Addr) (v : Byte) (s : State) :
    (fatalEntry e a v s).exitLevels = s.exitLevels := rfl

@[simp] theorem fatalEntry_ports (e : ErrorKind) (a : Addr) (v : Byte) (s : State) :
    (fatalEntry e a v s).ports = { outcome := some (.fatal ⟨e, a, v, s.scheme⟩) } := rfl

@[simp] theorem fatalEntry_oracleCount (e : ErrorKind) (a : Addr) (v : Byte) (s : State) :
    (fatalEntry e a v s).oracleCount = s.oracleCount := rfl

@[simp] theorem fatalEntry_scheme (e : ErrorKind) (a : Addr) (v : Byte) (s : State) :
    (fatalEntry e a v s).scheme = s.scheme := rfl

/-! ### `recoverableEntry` -/

@[simp] theorem recoverableEntry_session (e : ErrorKind) (a : Addr) (v : Byte) (o : BusOutcome) (s : State) :
    (recoverableEntry e a v o s).session = s.session := rfl

@[simp] theorem recoverableEntry_bank (e : ErrorKind) (a : Addr) (v : Byte) (o : BusOutcome) (s : State) :
    (recoverableEntry e a v o s).bank = s.bank := rfl

@[simp] theorem recoverableEntry_ram (e : ErrorKind) (a : Addr) (v : Byte) (o : BusOutcome) (s : State) :
    (recoverableEntry e a v o s).ram = s.ram := rfl

@[simp] theorem recoverableEntry_phase (e : ErrorKind) (a : Addr) (v : Byte) (o : BusOutcome) (s : State) :
    (recoverableEntry e a v o s).phase = s.phase := rfl

@[simp] theorem recoverableEntry_cycleCounter (e : ErrorKind) (a : Addr) (v : Byte) (o : BusOutcome) (s : State) :
    (recoverableEntry e a v o s).cycleCounter = s.cycleCounter := rfl

@[simp] theorem recoverableEntry_fatal (e : ErrorKind) (a : Addr) (v : Byte) (o : BusOutcome) (s : State) :
    (recoverableEntry e a v o s).fatal = s.fatal := rfl

@[simp] theorem recoverableEntry_events (e : ErrorKind) (a : Addr) (v : Byte) (o : BusOutcome) (s : State) :
    (recoverableEntry e a v o s).events = s.events := rfl

@[simp] theorem recoverableEntry_exitLevels (e : ErrorKind) (a : Addr) (v : Byte) (o : BusOutcome) (s : State) :
    (recoverableEntry e a v o s).exitLevels = s.exitLevels := rfl

@[simp] theorem recoverableEntry_ports (e : ErrorKind) (a : Addr) (v : Byte) (o : BusOutcome) (s : State) :
    (recoverableEntry e a v o s).ports = { outcome := some o, note := some ⟨e, a, v, s.scheme⟩ } := rfl

@[simp] theorem recoverableEntry_oracleCount (e : ErrorKind) (a : Addr) (v : Byte) (o : BusOutcome) (s : State) :
    (recoverableEntry e a v o s).oracleCount = s.oracleCount := rfl

@[simp] theorem recoverableEntry_scheme (e : ErrorKind) (a : Addr) (v : Byte) (o : BusOutcome) (s : State) :
    (recoverableEntry e a v o s).scheme = s.scheme := rfl

/-! ### `State.sequence` -/

@[simp] theorem State.sequence_session (s : State) (c : Call) (p : Phase) :
    (s.sequence c p).session = s.session := rfl

@[simp] theorem State.sequence_bank (s : State) (c : Call) (p : Phase) :
    (s.sequence c p).bank = s.bank := rfl

@[simp] theorem State.sequence_ram (s : State) (c : Call) (p : Phase) :
    (s.sequence c p).ram = s.ram := rfl

@[simp] theorem State.sequence_phase (s : State) (c : Call) (p : Phase) :
    (s.sequence c p).phase = p := rfl

@[simp] theorem State.sequence_cycleCounter (s : State) (c : Call) (p : Phase) :
    (s.sequence c p).cycleCounter = s.cycleCounter := rfl

@[simp] theorem State.sequence_fatal (s : State) (c : Call) (p : Phase) :
    (s.sequence c p).fatal = s.fatal := rfl

@[simp] theorem State.sequence_events (s : State) (c : Call) (p : Phase) :
    (s.sequence c p).events = s.events := rfl

@[simp] theorem State.sequence_exitLevels (s : State) (c : Call) (p : Phase) :
    (s.sequence c p).exitLevels = s.exitLevels := rfl

@[simp] theorem State.sequence_ports (s : State) (c : Call) (p : Phase) :
    (s.sequence c p).ports = { call := some c, raised := p.strobe } := rfl

@[simp] theorem State.sequence_oracleCount (s : State) (c : Call) (p : Phase) :
    (s.sequence c p).oracleCount = s.oracleCount := rfl

@[simp] theorem State.sequence_scheme (s : State) (c : Call) (p : Phase) :
    (s.sequence c p).scheme = s.scheme := rfl

/-! ### `Phase.strobe`, `State.frameStart` -/

@[simp] theorem Phase.strobe_poll : Phase.poll.strobe = [] := rfl

@[simp] theorem Phase.strobe_cpu : Phase.cpu.strobe = [.cpuAdvance] := rfl

@[simp] theorem Phase.strobe_disp : Phase.disp.strobe = [.displayAdvance] := rfl

@[simp] theorem Phase.strobe_tmr : Phase.tmr.strobe = [.timerAdvance] := rfl

@[simp] theorem Phase.strobe_yield : Phase.yield.strobe = [] := rfl

@[simp] theorem Phase.strobe_stopped : Phase.stopped.strobe = [] := rfl

@[simp] theorem State.frameStart_session (s : State) : s.frameStart.session = s.session := rfl

@[simp] theorem State.frameStart_bank (s : State) : s.frameStart.bank = s.bank := rfl

@[simp] theorem State.frameStart_ram (s : State) : s.frameStart.ram = s.ram := rfl

@[simp] theorem State.frameStart_phase (s : State) : s.frameStart.phase = .cpu := rfl

@[simp] theorem State.frameStart_cycleCounter (s : State) : s.frameStart.cycleCounter = 0 := rfl

@[simp] theorem State.frameStart_fatal (s : State) : s.frameStart.fatal = s.fatal := rfl

@[simp] theorem State.frameStart_events (s : State) : s.frameStart.events = s.events := rfl

@[simp] theorem State.frameStart_exitLevels (s : State) : s.frameStart.exitLevels = s.exitLevels := rfl

@[simp] theorem State.frameStart_ports (s : State) :
    s.frameStart.ports = { call := some .pollInput, raised := [.pollInput, .cpuAdvance] } := rfl

@[simp] theorem State.frameStart_oracleCount (s : State) : s.frameStart.oracleCount = s.oracleCount := rfl

@[simp] theorem State.frameStart_scheme (s : State) : s.frameStart.scheme = s.scheme := rfl

/-! ### `forward`, `State.rtcTick`, `consume` -/

@[simp] theorem forward_session (w : Dir) (s : State) : (forward w s).session = s.session := by
  cases w <;> rfl

@[simp] theorem forward_bank (w : Dir) (s : State) : (forward w s).bank = s.bank := by
  cases w <;> rfl

@[simp] theorem forward_ram (w : Dir) (s : State) : (forward w s).ram = s.ram := by
  cases w <;> rfl

@[simp] theorem forward_phase (w : Dir) (s : State) : (forward w s).phase = s.phase := by
  cases w <;> rfl

@[simp] theorem forward_cycleCounter (w : Dir) (s : State) : (forward w s).cycleCounter = s.cycleCounter := by
  cases w <;> rfl

@[simp] theorem forward_fatal (w : Dir) (s : State) : (forward w s).fatal = s.fatal := by
  cases w <;> rfl

@[simp] theorem forward_events (w : Dir) (s : State) : (forward w s).events = s.events := by
  cases w <;> rfl

@[simp] theorem forward_exitLevels (w : Dir) (s : State) : (forward w s).exitLevels = s.exitLevels := by
  cases w <;> rfl

@[simp] theorem forward_scheme (w : Dir) (s : State) : (forward w s).scheme = s.scheme := by
  cases w <;> rfl

@[simp] theorem State.rtcTick_session (s : State) : s.rtcTick.session = s.session := by
  unfold State.rtcTick; split <;> rfl

@[simp] theorem State.rtcTick_ram (s : State) : s.rtcTick.ram = s.ram := by
  unfold State.rtcTick; split <;> rfl

@[simp] theorem State.rtcTick_phase (s : State) : s.rtcTick.phase = s.phase := by
  unfold State.rtcTick; split <;> rfl

@[simp] theorem State.rtcTick_cycleCounter (s : State) : s.rtcTick.cycleCounter = s.cycleCounter := by
  unfold State.rtcTick; split <;> rfl

@[simp] theorem State.rtcTick_fatal (s : State) : s.rtcTick.fatal = s.fatal := by
  unfold State.rtcTick; split <;> rfl

@[simp] theorem State.rtcTick_events (s : State) : s.rtcTick.events = s.events := by
  unfold State.rtcTick; split <;> rfl

@[simp] theorem State.rtcTick_exitLevels (s : State) : s.rtcTick.exitLevels = s.exitLevels := by
  unfold State.rtcTick; split <;> rfl

@[simp] theorem State.rtcTick_ports (s : State) : s.rtcTick.ports = s.ports := by
  unfold State.rtcTick; split <;> rfl

@[simp] theorem State.rtcTick_oracleCount (s : State) : s.rtcTick.oracleCount = s.oracleCount := by
  unfold State.rtcTick; split <;> rfl

@[simp] theorem consume_session (s : State) : (consume s).session = s.session := by
  unfold consume; split <;> rfl

@[simp] theorem consume_bank (s : State) : (consume s).bank = s.bank := by
  unfold consume; split <;> rfl

@[simp] theorem consume_ram (s : State) : (consume s).ram = s.ram := by
  unfold consume; split <;> rfl

@[simp] theorem consume_phase (s : State) : (consume s).phase = s.phase := by
  unfold consume; split <;> rfl

@[simp] theorem consume_cycleCounter (s : State) : (consume s).cycleCounter = s.cycleCounter := by
  unfold consume; split <;> rfl

@[simp] theorem consume_fatal (s : State) : (consume s).fatal = s.fatal := by
  unfold consume; split <;> rfl

@[simp] theorem consume_exitLevels (s : State) : (consume s).exitLevels = s.exitLevels := by
  unfold consume; split <;> rfl

@[simp] theorem consume_ports (s : State) : (consume s).ports = s.ports := by
  unfold consume; split <;> rfl

@[simp] theorem consume_oracleCount (s : State) : (consume s).oracleCount = s.oracleCount := by
  unfold consume; split <;> rfl

@[simp] theorem consume_scheme (s : State) : (consume s).scheme = s.scheme := by
  unfold consume; split <;> rfl

/-- The RTC tick keeps the active scheme. -/
@[simp] theorem State.rtcTick_scheme (s : State) : s.rtcTick.scheme = s.scheme := by
  unfold State.rtcTick State.scheme
  split <;> simp_all [State.setBank, BankController.scheme]

/-- `State.reset` is the session start of `Launch.plain` (R200). -/
theorem reset_eq_startState : State.reset = startState Launch.plain := rfl

end Sys2Proof.Machine
end

