-- ==== Sys2Proof/Laws/Ops.lean ====
section
/-! SUPPORT. What each shared operation can do, said once: the gates, the image accesses, fatal entry, and
the operand functions in the arithmetic of the spec. -/

namespace Sys2Proof.Machine

/-! ### Gates -/

@[simp] theorem unlessFatal_of_none {s : State} (h : s.fatal = none) (k : Result) :
    unlessFatal s k = k := by simp [unlessFatal, h]

@[simp] theorem unlessFatal_of_some {s : State} {f : ErrorRecord} (h : s.fatal = some f) (k : Result) :
    unlessFatal s k = .next s.silent := by simp [unlessFatal, h]

@[simp] theorem onNone_of_bank {s : State} (h : s.bank = .noController) (k : Result) :
    onNone s k = k := by simp [onNone, h]

@[simp] theorem onScheme1_of_bank {s : State} {r : Scheme1Regs} (h : s.bank = .scheme1 r)
    (k : Scheme1Regs → Result) : onScheme1 s k = k r := by simp [onScheme1, h]

@[simp] theorem onScheme3_of_bank {s : State} {r : Scheme3Regs} (h : s.bank = .scheme3 r)
    (k : Scheme3Regs → Result) : onScheme3 s k = k r := by simp [onScheme3, h]

/-- A gated transaction answers a next state in two ways: refused because of a fatal record, or run. -/
theorem unlessFatal_next {s t : State} {k : Result} (h : unlessFatal s k = .next t) :
    (∃ f, s.fatal = some f ∧ t = s.silent) ∨ (s.fatal = none ∧ k = .next t) := by
  unfold unlessFatal at h
  split at h
  · next f hf => cases h; exact .inl ⟨f, hf, rfl⟩
  · next hf => exact .inr ⟨hf, h⟩

theorem onNone_next {s t : State} {k : Result} (h : onNone s k = .next t) :
    s.bank = .noController ∧ k = .next t := by
  unfold onNone at h
  split at h <;> first | exact ⟨‹_›, h⟩ | cases h

theorem onScheme1_next {s t : State} {k : Scheme1Regs → Result} (h : onScheme1 s k = .next t) :
    ∃ r, s.bank = .scheme1 r ∧ k r = .next t := by
  unfold onScheme1 at h
  split at h <;> first | exact ⟨_, ‹_›, h⟩ | cases h

theorem onScheme3_next {s t : State} {k : Scheme3Regs → Result} (h : onScheme3 s k = .next t) :
    ∃ r, s.bank = .scheme3 r ∧ k r = .next t := by
  unfold onScheme3 at h
  split at h <;> first | exact ⟨_, ‹_›, h⟩ | cases h

theorem inPhase_next {p : Phase} {s t : State} {k : Result} (h : inPhase p s k = .next t) :
    s.phase = p ∧ k = .next t := by
  unfold inPhase at h
  split at h
  · exact ⟨‹_›, h⟩
  · cases h

@[simp] theorem inPhase_of_phase {p : Phase} {s : State} (h : s.phase = p) (k : Result) :
    inPhase p s k = k := by simp [inPhase, h]

/-! ### Image accesses -/

theorem readRom_next {off : Nat} {a : Addr} {s t : State} (h : readRom off a s = .next t) :
    (off < s.session.romLen ∧ t = s.answer (.data (s.session.rom.read off))) ∨
    (s.session.romLen ≤ off ∧ t = fatalEntry .offsetOutOfRange a 0 s) := by
  unfold readRom at h
  split at h <;> cases h
  · exact .inl ⟨‹_›, rfl⟩
  · exact .inr ⟨by omega, rfl⟩

theorem readRam_next {off : Nat} {a : Addr} {s t : State} (h : readRam off a s = .next t) :
    (off < s.session.ramSize ∧ t = s.answer (.data (s.ram.read off))) ∨
    (s.session.ramSize ≤ off ∧ t = fatalEntry .offsetOutOfRange a 0 s) := by
  unfold readRam at h
  split at h <;> cases h
  · exact .inl ⟨‹_›, rfl⟩
  · exact .inr ⟨by omega, rfl⟩

theorem writeRam_next {off : Nat} {a : Addr} {v : Byte} {s t : State}
    (h : writeRam off a v s = .next t) :
    (off < s.session.ramSize ∧ t = (s.storeRam off v).answer .ack) ∨
    (s.session.ramSize ≤ off ∧ t = fatalEntry .offsetOutOfRange a v s) := by
  unfold writeRam at h
  split at h <;> cases h
  · exact .inl ⟨‹_›, rfl⟩
  · exact .inr ⟨by omega, rfl⟩

/-- Fatal entry, spelled out field by field. -/
theorem fatalEntry_eq (e : ErrorKind) (a : Addr) (v : Byte) (s : State) :
    fatalEntry e a v s = s.stoppedBy e a v := rfl

/-! ### Operands, in the arithmetic of the spec -/

theorem romWindowOffset_eq (a : Addr) : romWindowOffset a = a.toNat % 16384 := by
  simp [romWindowOffset]

theorem extWindowOffset_eq (a : Addr) : extWindowOffset a = a.toNat % 8192 := by
  simp [extWindowOffset]

theorem romOffset_eq (bank : Nat) (a : Addr) : romOffset bank a = bank * 16384 + a.toNat % 16384 := by
  rw [romOffset, romWindowOffset_eq]; rfl

theorem ramOffset_eq (bank : Nat) (a : Addr) : ramOffset bank a = bank * 8192 + a.toNat % 8192 := by
  rw [ramOffset, extWindowOffset_eq]; rfl

theorem enableOf_eq (v : Byte) : enableOf v = decide (v.toNat % 16 = 10) := by
  revert v; decide

theorem modeOf_eq (v : Byte) : modeOf v = if v.toNat % 2 = 1 then .ram else .rom := by
  revert v; decide

theorem lowBankOf_eq (v : Byte) : lowBankOf v = BitVec.ofNat 5 (max (v.toNat % 32) 1) := by
  revert v; decide

theorem bank7Of_eq (v : Byte) : bank7Of v = BitVec.ofNat 7 (max (v.toNat % 128) 1) := by
  revert v; decide

theorem upperOf_eq (v : Byte) : upperOf v = BitVec.ofNat 2 (v.toNat % 4) := by
  revert v; decide

/-- Bank 0 is never stored (R33). -/
theorem lowBankOf_ne_zero (v : Byte) : lowBankOf v ≠ 0 := by revert v; decide

theorem bank7Of_ne_zero (v : Byte) : bank7Of v ≠ 0 := by revert v; decide

theorem Scheme1Regs.romBank_toNat (r : Scheme1Regs) :
    r.romBank.toNat = r.romHi.toNat * 32 + r.romLo.toNat := by
  have := r.romLo.isLt
  simp only [Scheme1Regs.romBank, BitVec.toNat_append, Nat.shiftLeft_eq]
  rw [Nat.mul_comm, ← Nat.two_pow_add_eq_or_of_lt this]

/-- The effective bank (R52). -/
theorem Scheme1Regs.effRomBank_eq (r : Scheme1Regs) :
    r.effRomBank = if r.mode = .rom then r.romBank.toNat else r.romBank.toNat % 32 := by
  have := r.romLo.isLt
  unfold Scheme1Regs.effRomBank
  cases h : r.mode
  · simp
  · simp [Scheme1Regs.romBank_toNat]; omega

end Sys2Proof.Machine
end

