-- ==== Sys2Proof/Laws/Exec.lean ====
section
/-! SUPPORT. What a transaction and a phase can do, said once; what a step is; and runs of steps. -/

namespace Sys2Proof.Machine

/-- A transaction that answers a next state does one of these. The case of the register writes keeps R33's
"bank 0 is never stored". -/
theorem exec_bus_cases {i : Instr} {s t : State} (hb : i.isBus = true) (h : exec i s = .next t) :
    ((∃ f, s.fatal = some f) ∧ t = s.silent) ∨
    (s.fatal = none ∧
      ((∃ o, (∀ r, o ≠ .fatal r) ∧ t = s.answer o) ∨
       (∃ w, t = forward w s) ∨
       (∃ e a v, (e = .unmappedAddress ∨ e = .offsetOutOfRange) ∧ t = fatalEntry e a v s) ∨
       (∃ off v, off < s.session.ramSize ∧ t = (s.storeRam off v).answer .ack) ∨
       (∃ r r', s.bank = .scheme1 r ∧ (r.romLo ≠ 0 → r'.romLo ≠ 0) ∧
          t = (s.setBank (.scheme1 r')).answer .ack) ∨
       (∃ r r', s.bank = .scheme3 r ∧ r'.rtcSub = r.rtcSub ∧ (r.romBank ≠ 0 → r'.romBank ≠ 0) ∧
          (t = (s.setBank (.scheme3 r')).answer .ack ∨
           ∃ a v, t = recoverableEntry .undefinedRegisterSelect a v .ack (s.setBank (.scheme3 r')))))) := by
  have ans : ∀ {o : BusOutcome}, (∀ r, o ≠ .fatal r) → t = s.answer o →
      (∃ o, (∀ r, o ≠ .fatal r) ∧ t = s.answer o) := fun h1 h2 => ⟨_, h1, h2⟩
  have rom : ∀ {off : Nat} {a : Addr}, readRom off a s = .next t →
      (∃ o, (∀ r, o ≠ .fatal r) ∧ t = s.answer o) ∨
      (∃ e a v, (e = .unmappedAddress ∨ e = .offsetOutOfRange) ∧ t = fatalEntry e a v s) := fun h => by
    rcases readRom_next h with ⟨-, h⟩ | ⟨-, h⟩
    · exact .inl (ans (by simp) h)
    · exact .inr ⟨_, _, _, .inr rfl, h⟩
  have ram : ∀ {off : Nat} {a : Addr}, readRam off a s = .next t →
      (∃ o, (∀ r, o ≠ .fatal r) ∧ t = s.answer o) ∨
      (∃ e a v, (e = .unmappedAddress ∨ e = .offsetOutOfRange) ∧ t = fatalEntry e a v s) := fun h => by
    rcases readRam_next h with ⟨-, h⟩ | ⟨-, h⟩
    · exact .inl (ans (by simp) h)
    · exact .inr ⟨_, _, _, .inr rfl, h⟩
  have wr : ∀ {off : Nat} {a : Addr} {v : Byte}, writeRam off a v s = .next t →
      (∃ off v, off < s.session.ramSize ∧ t = (s.storeRam off v).answer .ack) ∨
      (∃ e a v, (e = .unmappedAddress ∨ e = .offsetOutOfRange) ∧ t = fatalEntry e a v s) := fun h => by
    rcases writeRam_next h with ⟨h1, h⟩ | ⟨-, h⟩
    · exact .inl ⟨_, _, h1, h⟩
    · exact .inr ⟨_, _, _, .inr rfl, h⟩
  have w1 : ∀ {f : Scheme1Regs → Scheme1Regs}, (∀ r, r.romLo ≠ 0 → (f r).romLo ≠ 0) →
      onScheme1 s (fun r => .next ((s.setBank (.scheme1 (f r))).answer .ack)) = .next t →
      (∃ r r', s.bank = .scheme1 r ∧ (r.romLo ≠ 0 → r'.romLo ≠ 0) ∧
          t = (s.setBank (.scheme1 r')).answer .ack) := fun hf h => by
    obtain ⟨r, hr, h⟩ := onScheme1_next h
    cases h
    exact ⟨r, _, hr, hf r, rfl⟩
  have w3 : ∀ {f : Scheme3Regs → Scheme3Regs}, (∀ r, (f r).rtcSub = r.rtcSub) →
      (∀ r, r.romBank ≠ 0 → (f r).romBank ≠ 0) →
      onScheme3 s (fun r => .next ((s.setBank (.scheme3 (f r))).answer .ack)) = .next t →
      (∃ r r', s.bank = .scheme3 r ∧ r'.rtcSub = r.rtcSub ∧ (r.romBank ≠ 0 → r'.romBank ≠ 0) ∧
          (t = (s.setBank (.scheme3 r')).answer .ack ∨
           ∃ a v, t = recoverableEntry .undefinedRegisterSelect a v .ack (s.setBank (.scheme3 r')))) :=
    fun hf hg h => by
      obtain ⟨r, hr, h⟩ := onScheme3_next h
      cases h
      exact ⟨r, _, hr, hf r, hg r, .inl rfl⟩
  cases i with
  | poll | cpu | disp | tmr | yield | stopped => cases hb
  | nRdRom a =>
    refine (unlessFatal_next h).imp (fun ⟨f, hf, ht⟩ => ⟨⟨f, hf⟩, ht⟩) fun ⟨hf, h⟩ => ⟨hf, ?_⟩
    rcases rom (onNone_next h).2 with h | h <;> simp only [h, true_or, or_true]
  | nWrRom a v =>
    refine (unlessFatal_next h).imp (fun ⟨f, hf, ht⟩ => ⟨⟨f, hf⟩, ht⟩) fun ⟨hf, h⟩ => ⟨hf, .inl ?_⟩
    have h := (onNone_next h).2
    cases h; exact ⟨_, by simp, rfl⟩
  | nRdX a =>
    refine (unlessFatal_next h).imp (fun ⟨f, hf, ht⟩ => ⟨⟨f, hf⟩, ht⟩) fun ⟨hf, h⟩ =>
      ⟨hf, .inr (.inr (.inl ?_))⟩
    have h := (onNone_next h).2
    cases h; exact ⟨_, _, _, .inl rfl, rfl⟩
  | nWrX a v =>
    refine (unlessFatal_next h).imp (fun ⟨f, hf, ht⟩ => ⟨⟨f, hf⟩, ht⟩) fun ⟨hf, h⟩ =>
      ⟨hf, .inr (.inr (.inl ?_))⟩
    have h := (onNone_next h).2
    cases h; exact ⟨_, _, _, .inl rfl, rfl⟩
  | s1WrRamen a v =>
    refine (unlessFatal_next h).imp (fun ⟨f, hf, ht⟩ => ⟨⟨f, hf⟩, ht⟩) fun ⟨hf, h⟩ =>
      ⟨hf, .inr (.inr (.inr (.inr (.inl (w1 (f := fun r => { r with ramEnable := enableOf v }) (fun _ h => h) h)))))⟩
  | s1WrRomlo a v =>
    refine (unlessFatal_next h).imp (fun ⟨f, hf, ht⟩ => ⟨⟨f, hf⟩, ht⟩) fun ⟨hf, h⟩ =>
      ⟨hf, .inr (.inr (.inr (.inr (.inl (w1 (fun _ _ => lowBankOf_ne_zero v) h)))))⟩
  | s1WrUpper a v =>
    refine (unlessFatal_next h).imp (fun ⟨f, hf, ht⟩ => ⟨⟨f, hf⟩, ht⟩) fun ⟨hf, h⟩ =>
      ⟨hf, .inr (.inr (.inr (.inr (.inl (w1 (fun r h => ?_) h)))))⟩
    unfold Scheme1Regs.setUpper
    split <;> exact h
  | s1WrMode a v =>
    refine (unlessFatal_next h).imp (fun ⟨f, hf, ht⟩ => ⟨⟨f, hf⟩, ht⟩) fun ⟨hf, h⟩ =>
      ⟨hf, .inr (.inr (.inr (.inr (.inl (w1 (f := fun r => { r with mode := modeOf v }) (fun _ h => h) h)))))⟩
  | s1RdRom0 a | s1RdRomx a =>
    refine (unlessFatal_next h).imp (fun ⟨f, hf, ht⟩ => ⟨⟨f, hf⟩, ht⟩) fun ⟨hf, h⟩ => ⟨hf, ?_⟩
    obtain ⟨r, -, h⟩ := onScheme1_next h
    rcases rom h with h | h <;> simp only [h, true_or, or_true]
  | s1RdXram a =>
    refine (unlessFatal_next h).imp (fun ⟨f, hf, ht⟩ => ⟨⟨f, hf⟩, ht⟩) fun ⟨hf, h⟩ => ⟨hf, ?_⟩
    obtain ⟨r, -, h⟩ := onScheme1_next h
    split at h
    · rcases ram h with h | h <;> simp only [h, true_or, or_true]
    · cases h; exact .inl ⟨_, by simp, rfl⟩
  | s1WrXram a v =>
    refine (unlessFatal_next h).imp (fun ⟨f, hf, ht⟩ => ⟨⟨f, hf⟩, ht⟩) fun ⟨hf, h⟩ => ⟨hf, ?_⟩
    obtain ⟨r, -, h⟩ := onScheme1_next h
    split at h
    · rcases wr h with h | h <;> simp only [h, true_or, or_true]
    · cases h; exact .inl ⟨_, by simp, rfl⟩
  | s3WrEn a v =>
    refine (unlessFatal_next h).imp (fun ⟨f, hf, ht⟩ => ⟨⟨f, hf⟩, ht⟩) fun ⟨hf, h⟩ =>
      ⟨hf, .inr (.inr (.inr (.inr (.inr (w3 (f := fun r => { r with enable := enableOf v }) (fun _ => rfl) (fun _ h => h) h)))))⟩
  | s3WrRomb a v =>
    refine (unlessFatal_next h).imp (fun ⟨f, hf, ht⟩ => ⟨⟨f, hf⟩, ht⟩) fun ⟨hf, h⟩ =>
      ⟨hf, .inr (.inr (.inr (.inr (.inr (w3 (f := fun r => { r with romBank := bank7Of v }) (fun _ => rfl)
        (fun _ _ => bank7Of_ne_zero v) h)))))⟩
  | s3WrSel a v =>
    refine (unlessFatal_next h).imp (fun ⟨f, hf, ht⟩ => ⟨⟨f, hf⟩, ht⟩) fun ⟨hf, h⟩ =>
      ⟨hf, .inr (.inr (.inr (.inr (.inr ?_))))⟩
    obtain ⟨r, hr, h⟩ := onScheme3_next h
    refine ⟨r, { r with select := selectOf v }, hr, rfl, fun h => h, ?_⟩
    dsimp only at h
    split at h <;> cases h
    · exact .inr ⟨a, v, rfl⟩
    · exact .inl rfl
  | s3WrLatch a v =>
    refine (unlessFatal_next h).imp (fun ⟨f, hf, ht⟩ => ⟨⟨f, hf⟩, ht⟩) fun ⟨hf, h⟩ =>
      ⟨hf, .inr (.inr (.inr (.inr (.inr (w3 (fun r => ?_) (fun r h => ?_) h)))))⟩
    · unfold Scheme3Regs.latchWrite; split
      · rfl
      · split <;> rfl
    · unfold Scheme3Regs.latchWrite; split
      · exact h
      · split <;> exact h
  | s3RdRom0 a | s3RdRomx a =>
    refine (unlessFatal_next h).imp (fun ⟨f, hf, ht⟩ => ⟨⟨f, hf⟩, ht⟩) fun ⟨hf, h⟩ => ⟨hf, ?_⟩
    obtain ⟨r, -, h⟩ := onScheme3_next h
    rcases rom h with h | h <;> simp only [h, true_or, or_true]
  | s3RdX a =>
    refine (unlessFatal_next h).imp (fun ⟨f, hf, ht⟩ => ⟨⟨f, hf⟩, ht⟩) fun ⟨hf, h⟩ => ⟨hf, ?_⟩
    obtain ⟨r, -, h⟩ := onScheme3_next h
    split at h
    · split at h
      · rcases ram h with h | h <;> simp only [h, true_or, or_true]
      · cases h; exact .inl ⟨_, by simp, rfl⟩
      · cases h; exact .inl ⟨_, by simp, rfl⟩
    · cases h; exact .inl ⟨_, by simp, rfl⟩
  | s3WrX a v =>
    refine (unlessFatal_next h).imp (fun ⟨f, hf, ht⟩ => ⟨⟨f, hf⟩, ht⟩) fun ⟨hf, h⟩ => ⟨hf, ?_⟩
    obtain ⟨r, hr, h⟩ := onScheme3_next h
    split at h
    · split at h
      · rcases wr h with h | h <;> simp only [h, true_or, or_true]
      · next x hx =>
        cases h
        exact .inr (.inr (.inr (.inr (.inr ⟨r, { r with live := r.live.set x v }, hr, rfl, fun h => h, .inl rfl⟩))))
      · cases h; exact .inl ⟨_, by simp, rfl⟩
    · cases h; exact .inl ⟨_, by simp, rfl⟩
  | fwd8 sch w a v | fwdC sch w a v =>
    refine (unlessFatal_next h).imp (fun ⟨f, hf, ht⟩ => ⟨⟨f, hf⟩, ht⟩) fun ⟨hf, h⟩ =>
      ⟨hf, .inr (.inl ⟨w, by cases h; rfl⟩)⟩

/-- A phase that answers a next state does one of these. -/
theorem exec_phase_cases {i : Instr} {s t : State} (hb : i.isBus = false) (h : exec i s = .next t) :
    (i = .poll ∧ s.phase = .poll ∧
      (s.fatal ≠ none ∧ t = s.silent ∨
       s.fatal = none ∧ t = s.frameStart)) ∨
    (i = .cpu ∧ s.phase = .cpu ∧ t = s.sequence .cpuAdvance (s.stageNext .disp)) ∨
    (i = .disp ∧ s.phase = .disp ∧ t = s.sequence .displayAdvance (s.stageNext .tmr)) ∨
    (i = .tmr ∧ s.phase = .tmr ∧
      (s.fatal ≠ none ∧ t = s.sequence .timerAdvance .stopped ∨ s.fatal = none ∧ t = s.tickEnd)) ∨
    (i = .yield ∧ s.phase = .yield ∧
      (s.fatal ≠ none ∧ t = s.silent ∨
       s.fatal = none ∧ t = { s.sequence .frameDone (if s.exitRequest then .stopped else .poll) with
         exitLevels := s.exitLevels.tail })) ∨
    (i = .stopped ∧ s.phase = .stopped ∧ t = s.silent) := by
  cases i with
  | poll =>
    obtain ⟨hp, h⟩ := inPhase_next h
    rcases unlessFatal_next h with ⟨f, hf, ht⟩ | ⟨hf, h⟩
    · simp [hp, hf, ht]
    · cases h; simp [hp, hf]
  | cpu => obtain ⟨hp, h⟩ := inPhase_next h; cases h; simp [hp]
  | disp => obtain ⟨hp, h⟩ := inPhase_next h; cases h; simp [hp]
  | tmr =>
    obtain ⟨hp, h⟩ := inPhase_next h
    split at h <;> cases h <;> simp_all
  | yield =>
    obtain ⟨hp, h⟩ := inPhase_next h
    rcases unlessFatal_next h with ⟨f, hf, ht⟩ | ⟨hf, h⟩
    · simp [hp, hf, ht]
    · cases h; simp [hp, hf]
  | stopped => obtain ⟨hp, h⟩ := inPhase_next h; cases h; simp [hp]
  | _ => cases hb

/-- A transaction is fetched in a stage only (R165). -/
theorem isStage_of_fetch_bus {s : State} {i : Instr} (h : decode (fetchWord s) = .ok i)
    (hb : i.isBus = true) : s.phase.isStage = true := by
  unfold fetchWord at h
  split at h
  · assumption
  · cases hp : s.phase <;> rw [hp] at h <;> cases h <;> cases hb

/-- The next word is an operation whenever the step answers a next state, and the step is that operation on
the state whose event is consumed. -/
theorem step_next {s t : State} (h : step s = .next t) :
    ∃ i, decode (fetchWord s) = .ok i ∧ exec i (consume s) = .next t := by
  unfold step runWord at h
  split at h
  · exact ⟨_, ‹_›, h⟩
  · cases h

/-- A transaction raises no strobe: the call of its stage is under way already. -/
theorem exec_bus_raised {i : Instr} {s t : State} (hb : i.isBus = true) (h : exec i s = .next t) :
    t.ports.raised = [] := by
  rcases exec_bus_cases hb h with ⟨-, rfl⟩ | ⟨-, h⟩
  · rfl
  · rcases h with ⟨_, -, rfl⟩ | ⟨w, rfl⟩ | ⟨_, _, _, -, rfl⟩ | ⟨_, _, -, rfl⟩ | ⟨_, _, -, -, rfl⟩ |
      ⟨_, _, -, -, -, rfl | ⟨_, _, rfl⟩⟩
    · rfl
    · cases w <;> rfl
    all_goals rfl

/-! ### Runs of steps -/

@[simp] theorem runSteps_zero (s : State) : runSteps 0 s = .next s := rfl

@[simp] theorem strobesIn_zero (s : State) : strobesIn 0 s = [] := rfl

theorem runSteps_succ {s t : State} (n : Nat) (h : step s = .next t) :
    runSteps (n + 1) s = runSteps n t := by
  simp only [runSteps, h]

theorem strobesIn_succ {s t : State} (n : Nat) (h : step s = .next t) :
    strobesIn (n + 1) s = t.ports.raised ++ strobesIn n t := by
  simp only [strobesIn, h]

/-- A run that answers a next state begins with a step that does. -/
theorem runSteps_succ_next {s u : State} {n : Nat} (h : runSteps (n + 1) s = .next u) :
    ∃ t, step s = .next t ∧ runSteps n t = .next u := by
  unfold runSteps at h
  split at h
  · exact ⟨_, ‹_›, h⟩
  all_goals cases h

theorem runSteps_add {s t : State} {m : Nat} (n : Nat) (h : runSteps m s = .next t) :
    runSteps (m + n) s = runSteps n t := by
  induction m generalizing s with
  | zero => cases h; rw [Nat.zero_add]
  | succ m ih =>
    obtain ⟨u, hu, h⟩ := runSteps_succ_next h
    rw [Nat.succ_add, runSteps_succ _ hu, ih h]

theorem strobesIn_add {s t : State} {m : Nat} (n : Nat) (h : runSteps m s = .next t) :
    strobesIn (m + n) s = strobesIn m s ++ strobesIn n t := by
  induction m generalizing s with
  | zero => cases h; rw [Nat.zero_add, strobesIn_zero, List.nil_append]
  | succ m ih =>
    obtain ⟨u, hu, h⟩ := runSteps_succ_next h
    rw [Nat.succ_add, strobesIn_succ _ hu, strobesIn_succ _ hu, ih h, List.append_assoc]

/-! ### Decoding -/

/-- A transaction of a session, decoded: under a decodable scheme the row of its head. -/
theorem decode_transaction {sch : Scheme} (hs : sch ≠ .unsupported) (w : Dir) (a : Addr) (d : Byte) :
    decode (.bus (transaction sch w a d)) =
      match rowOfHead (sch.tag ++ w.bit ++ a.extractLsb 15 13) with
      | none => .error .noRow
      | some r => .ok (r.instr (transaction sch w a d)) := by
  cases hr : rowOfHead (sch.tag ++ w.bit ++ a.extractLsb 15 13) <;>
    simp only [decode, decodeBus, fieldS_transaction, Scheme.tag_eq_reserved, hs, if_false,
      rowOf_eq_rowOfHead, headBits_transaction, hr]

end Sys2Proof.Machine
end

