-- ==== Sys2Proof/Laws/PerInstr.lean ====
section
/-! SUPPORT. The family `EncodingRow`, stated per instruction: the word the encoder writes for a
well-formed bus operation is one its own row of the decode map (R76) matches; a phase's word is its
code. -/

namespace Sys2Proof.Laws.EncodingRow

/-- The row of the decode map an operation belongs to; a phase has none. -/
def row : Instr → Option BusRow
  | .nRdRom _ => some .nRdRom
  | .nWrRom _ _ => some .nWrRom
  | .nRdX _ => some .nRdX
  | .nWrX _ _ => some .nWrX
  | .s1WrRamen _ _ => some .s1WrRamen
  | .s1WrRomlo _ _ => some .s1WrRomlo
  | .s1WrUpper _ _ => some .s1WrUpper
  | .s1WrMode _ _ => some .s1WrMode
  | .s1RdRom0 _ => some .s1RdRom0
  | .s1RdRomx _ => some .s1RdRomx
  | .s1RdXram _ => some .s1RdXram
  | .s1WrXram _ _ => some .s1WrXram
  | .s3WrEn _ _ => some .s3WrEn
  | .s3WrRomb _ _ => some .s3WrRomb
  | .s3WrSel _ _ => some .s3WrSel
  | .s3WrLatch _ _ => some .s3WrLatch
  | .s3RdRom0 _ => some .s3RdRom0
  | .s3RdRomx _ => some .s3RdRomx
  | .s3RdX _ => some .s3RdX
  | .s3WrX _ _ => some .s3WrX
  | .fwd8 _ _ _ _ => some .fwd8
  | .fwdC _ _ _ _ => some .fwdC
  | .poll => none
  | .cpu => none
  | .disp => none
  | .tmr => none
  | .yield => none
  | .stopped => none

/-- The encoded word of a well-formed operation is matched by the operation's own row; the word of a phase
is its phase code. -/
def Statement (i : Instr) : Prop :=
  i.wf = true →
    match encode i, row i with
    | .bus t, some r => r.hits t = true
    | .phase c, none => decodePhase c = .ok i
    | .bus _, none => False
    | .phase _, some _ => False

/-- A transaction is matched by a row if the row matches its scheme, its direction and its range. -/
theorem hits_of_range (r : BusRow) (sch : Scheme) (w : Dir) (a : Addr) (d : Byte) (n : Nat)
    (hn : a.toNat / 8192 = n) (h : r.headHits (sch.tag ++ w.bit ++ BitVec.ofNat 3 n) = true) :
    r.hits (transaction sch w a d) = true := by
  rw [BusRow.hits_eq_headHits, headBits_transaction]
  rw [show a.extractLsb 15 13 = BitVec.ofNat 3 n from BitVec.eq_of_toNat_eq (by
    rw [toNat_rangeSelect, hn, BitVec.toNat_ofNat]
    have := a.isLt
    omega)]
  exact h

/-- The ranges of 0x2000 bytes an address of an interval can lie in. -/
theorem range_of_inRange {a : Addr} {lo hi : Nat} (h : inRange a lo hi = true) :
    lo / 8192 ≤ a.toNat / 8192 ∧ a.toNat / 8192 ≤ hi / 8192 := by
  simp only [inRange, Bool.and_eq_true, decide_eq_true_eq] at h
  exact ⟨Nat.div_le_div_right h.1, Nat.div_le_div_right h.2⟩

theorem nRdRom (a : Addr) : Statement (.nRdRom a) := fun h => by
  have hr := range_of_inRange h
  rcases (by omega : a.toNat / 8192 = 0 ∨ a.toNat / 8192 = 1 ∨ a.toNat / 8192 = 2 ∨ a.toNat / 8192 = 3) with
    hn | hn | hn | hn <;>
  exact hits_of_range _ _ _ _ _ _ hn (by decide)

theorem nWrRom (a : Addr) (v : Byte) : Statement (.nWrRom a v) := fun h => by
  have hr := range_of_inRange h
  rcases (by omega : a.toNat / 8192 = 0 ∨ a.toNat / 8192 = 1 ∨ a.toNat / 8192 = 2 ∨ a.toNat / 8192 = 3) with
    hn | hn | hn | hn <;>
  exact hits_of_range _ _ _ _ _ _ hn (by decide)

theorem nRdX (a : Addr) : Statement (.nRdX a) := fun h => by
  have hr := range_of_inRange h
  exact hits_of_range _ _ _ _ _ 5 (by omega) (by decide)

theorem nWrX (a : Addr) (v : Byte) : Statement (.nWrX a v) := fun h => by
  have hr := range_of_inRange h
  exact hits_of_range _ _ _ _ _ 5 (by omega) (by decide)

theorem s1WrRamen (a : Addr) (v : Byte) : Statement (.s1WrRamen a v) := fun h => by
  have hr := range_of_inRange h
  exact hits_of_range _ _ _ _ _ 0 (by omega) (by decide)

theorem s1WrRomlo (a : Addr) (v : Byte) : Statement (.s1WrRomlo a v) := fun h => by
  have hr := range_of_inRange h
  exact hits_of_range _ _ _ _ _ 1 (by omega) (by decide)

theorem s1WrUpper (a : Addr) (v : Byte) : Statement (.s1WrUpper a v) := fun h => by
  have hr := range_of_inRange h
  exact hits_of_range _ _ _ _ _ 2 (by omega) (by decide)

theorem s1WrMode (a : Addr) (v : Byte) : Statement (.s1WrMode a v) := fun h => by
  have hr := range_of_inRange h
  exact hits_of_range _ _ _ _ _ 3 (by omega) (by decide)

theorem s1RdRom0 (a : Addr) : Statement (.s1RdRom0 a) := fun h => by
  have hr := range_of_inRange h
  rcases (by omega : a.toNat / 8192 = 0 ∨ a.toNat / 8192 = 1) with
    hn | hn <;>
  exact hits_of_range _ _ _ _ _ _ hn (by decide)

theorem s1RdRomx (a : Addr) : Statement (.s1RdRomx a) := fun h => by
  have hr := range_of_inRange h
  rcases (by omega : a.toNat / 8192 = 2 ∨ a.toNat / 8192 = 3) with
    hn | hn <;>
  exact hits_of_range _ _ _ _ _ _ hn (by decide)

theorem s1RdXram (a : Addr) : Statement (.s1RdXram a) := fun h => by
  have hr := range_of_inRange h
  exact hits_of_range _ _ _ _ _ 5 (by omega) (by decide)

theorem s1WrXram (a : Addr) (v : Byte) : Statement (.s1WrXram a v) := fun h => by
  have hr := range_of_inRange h
  exact hits_of_range _ _ _ _ _ 5 (by omega) (by decide)

theorem s3WrEn (a : Addr) (v : Byte) : Statement (.s3WrEn a v) := fun h => by
  have hr := range_of_inRange h
  exact hits_of_range _ _ _ _ _ 0 (by omega) (by decide)

theorem s3WrRomb (a : Addr) (v : Byte) : Statement (.s3WrRomb a v) := fun h => by
  have hr := range_of_inRange h
  exact hits_of_range _ _ _ _ _ 1 (by omega) (by decide)

theorem s3WrSel (a : Addr) (v : Byte) : Statement (.s3WrSel a v) := fun h => by
  have hr := range_of_inRange h
  exact hits_of_range _ _ _ _ _ 2 (by omega) (by decide)

theorem s3WrLatch (a : Addr) (v : Byte) : Statement (.s3WrLatch a v) := fun h => by
  have hr := range_of_inRange h
  exact hits_of_range _ _ _ _ _ 3 (by omega) (by decide)

theorem s3RdRom0 (a : Addr) : Statement (.s3RdRom0 a) := fun h => by
  have hr := range_of_inRange h
  rcases (by omega : a.toNat / 8192 = 0 ∨ a.toNat / 8192 = 1) with
    hn | hn <;>
  exact hits_of_range _ _ _ _ _ _ hn (by decide)

theorem s3RdRomx (a : Addr) : Statement (.s3RdRomx a) := fun h => by
  have hr := range_of_inRange h
  rcases (by omega : a.toNat / 8192 = 2 ∨ a.toNat / 8192 = 3) with
    hn | hn <;>
  exact hits_of_range _ _ _ _ _ _ hn (by decide)

theorem s3RdX (a : Addr) : Statement (.s3RdX a) := fun h => by
  have hr := range_of_inRange h
  exact hits_of_range _ _ _ _ _ 5 (by omega) (by decide)

theorem s3WrX (a : Addr) (v : Byte) : Statement (.s3WrX a v) := fun h => by
  have hr := range_of_inRange h
  exact hits_of_range _ _ _ _ _ 5 (by omega) (by decide)

theorem fwd8 (sch : Scheme) (w : Dir) (a : Addr) (v : Byte) : Statement (.fwd8 sch w a v) := fun h => by
  obtain ⟨h, -⟩ : _ ∧ forwardOk sch w v = true := by simpa [Instr.wf] using h
  have hr := range_of_inRange h
  exact hits_of_range _ _ _ _ _ 4 (by omega) (by cases sch <;> cases w <;> decide)

theorem fwdC (sch : Scheme) (w : Dir) (a : Addr) (v : Byte) : Statement (.fwdC sch w a v) := fun h => by
  obtain ⟨h, -⟩ : _ ∧ forwardOk sch w v = true := by simpa [Instr.wf] using h
  have hr := range_of_inRange h
  rcases (by omega : a.toNat / 8192 = 6 ∨ a.toNat / 8192 = 7) with
    hn | hn <;>
  exact hits_of_range _ _ _ _ _ _ hn (by cases sch <;> cases w <;> decide)

theorem poll : Statement .poll := fun _ => rfl

theorem cpu : Statement .cpu := fun _ => rfl

theorem disp : Statement .disp := fun _ => rfl

theorem tmr : Statement .tmr := fun _ => rfl

theorem yield : Statement .yield := fun _ => rfl

theorem stopped : Statement .stopped := fun _ => rfl

end Sys2Proof.Laws.EncodingRow
end

