-- ==== Sys2Proof/Tests/Slice0.lean ====
section
/-! SUPPORT. The model's own tests. Words and expected results are the spec's (spec/95_test_vectors.md, its
vector's number beside each) or worked out by hand from the rule named. Then a witness for the hypotheses
of every statement that has any. -/

namespace Sys2Proof.Tests

open Sys2Proof.Machine

/-! ### Well-formedness: an ill-formed term for each check -/

theorem test_wf_refuses_address_outside_row :
    [Instr.nRdRom 0x8000, .nWrRom 0x8000 0, .nRdX 0x9FFF, .nWrX 0xC000 0, .s1WrRamen 0x2000 0,
     .s1WrRomlo 0x1FFF 0, .s1WrUpper 0x6000 0, .s1WrMode 0x5FFF 0, .s1RdRom0 0x4000, .s1RdRomx 0x3FFF,
     .s1RdXram 0xC000, .s1WrXram 0x9FFF 0].all (fun i => i.wf == false) = true := by decide

theorem test_wf_refuses_address_outside_row_scheme3 :
    [Instr.s3WrEn 0x2000 0, .s3WrRomb 0x4000 0, .s3WrSel 0x3FFF 0, .s3WrLatch 0x8000 0, .s3RdRom0 0x4000,
     .s3RdRomx 0x8000, .s3RdX 0x9FFF, .s3WrX 0xC000 0, .fwd8 .none .write 0xA000 0,
     .fwdC .none .write 0xBFFF 0].all (fun i => i.wf == false) = true := by decide

theorem test_wf_refuses_reserved_scheme : (Instr.fwd8 .unsupported .write 0x8000 1).wf = false := by decide

theorem test_wf_refuses_data_on_read : (Instr.fwdC .scheme1 .read 0xC000 1).wf = false := by decide

/-! ### Decoding: a word of the spec for every constructor (V0.1 to V0.24, P1 to P5, R79) -/

theorem test_decode_none :
    decode (.bus 0x07FFF00) = .ok (.nRdRom 0x7FFF) ∧ decode (.bus 0x1200003) = .ok (.nWrRom 0x2000 0x03) ∧
    decode (.bus 0x0A00000) = .ok (.nRdX 0xA000) ∧ decode (.bus 0x1B00012) = .ok (.nWrX 0xB000 0x12) := by
  decide

theorem test_decode_scheme1 :
    decode (.bus 0x31FFF0A) = .ok (.s1WrRamen 0x1FFF 0x0A) ∧
    decode (.bus 0x3200003) = .ok (.s1WrRomlo 0x2000 0x03) ∧
    decode (.bus 0x35FFF01) = .ok (.s1WrUpper 0x5FFF 0x01) ∧
    decode (.bus 0x3600001) = .ok (.s1WrMode 0x6000 0x01) ∧
    decode (.bus 0x23FFF00) = .ok (.s1RdRom0 0x3FFF) ∧ decode (.bus 0x2400000) = .ok (.s1RdRomx 0x4000) ∧
    decode (.bus 0x2BFFF00) = .ok (.s1RdXram 0xBFFF) ∧
    decode (.bus 0x3A00577) = .ok (.s1WrXram 0xA005 0x77) := by decide

theorem test_decode_scheme3 :
    decode (.bus 0x700000A) = .ok (.s3WrEn 0x0000 0x0A) ∧
    decode (.bus 0x7200005) = .ok (.s3WrRomb 0x2000 0x05) ∧
    decode (.bus 0x7400009) = .ok (.s3WrSel 0x4000 0x09) ∧
    decode (.bus 0x77FFF01) = .ok (.s3WrLatch 0x7FFF 0x01) ∧
    decode (.bus 0x6010000) = .ok (.s3RdRom0 0x0100) ∧ decode (.bus 0x67FFF00) = .ok (.s3RdRomx 0x7FFF) ∧
    decode (.bus 0x6A00000) = .ok (.s3RdX 0xA000) ∧ decode (.bus 0x7A00040) = .ok (.s3WrX 0xA000 0x40) := by
  decide

theorem test_decode_forward :
    decode (.bus 0x0800000) = .ok (.fwd8 .none .read 0x8000 0) ∧
    decode (.bus 0x7FFFF01) = .ok (.fwdC .scheme3 .write 0xFFFF 0x01) ∧
    decode (.bus 0x29FFF00) = .ok (.fwd8 .scheme1 .read 0x9FFF 0) ∧
    decode (.bus 0x2C00000) = .ok (.fwdC .scheme1 .read 0xC000 0) := by decide

theorem test_decode_phases :
    decode (.phase 0b000) = .ok .poll ∧ decode (.phase 0b001) = .ok .cpu ∧
    decode (.phase 0b010) = .ok .disp ∧ decode (.phase 0b011) = .ok .tmr ∧
    decode (.phase 0b100) = .ok .yield ∧ decode (.phase 0b101) = .ok .stopped := by decide

theorem test_decode_rejects :
    decode (.bus 0x4000000) = .error .reservedScheme ∧ decode (.bus 0x4800000) = .error .reservedScheme ∧
    decode (.phase 0b110) = .error .unusedPhaseCode ∧ decodeTableWord 8 9 = none ∧
    decodeTableWord 32 0x8000000 = none := by decide

/-- The data field of a read is ignored (R70). -/
theorem test_decode_read_ignores_data : decode (.bus 0x24000FF) = .ok (.s1RdRomx 0x4000) := by decide

/-- The codes of R175. -/
theorem test_error_codes :
    ErrorKind.unsupportedScheme.code = 1 ∧ ErrorKind.unmappedAddress.code = 2 ∧
    ErrorKind.undefinedRegisterSelect.code = 3 ∧ ErrorKind.offsetOutOfRange.code = 4 := by decide

/-! ### A small machine -/

/-- Eight ROM banks with a few bytes of the test pattern `PAT` of spec/95_test_vectors.md, 16 KiB of RAM. -/
def session : Session :=
  { romLen := 131072
    rom := [(0x150, 0x50), (16384, 0x01), (49152, 0x03), (49153, 0x04), (65535, 0x02), (81920, 0x05)]
    ramSize := 16384
    openBus := 0xFF
    mainCycles := 3
    rtcTicksPerSecond := 3 }

/-- A running session of the given registers, in the `CPU` stage. -/
def base (b : BankController) : State :=
  { session := session, bank := b, ram := [(0, 0xEE)], phase := .cpu, cycleCounter := 1, fatal := none,
    events := [], exitLevels := [], ports := {}, oracleCount := 0 }

/-- Scheme1 registers as the columns `en, rb, kb, md` of spec/95_test_vectors.md section 2.2 give them. -/
def one (en : Bool) (rb : BitVec 7) (kb : BitVec 2) (md : Mode) : Scheme1Regs :=
  { ramEnable := en, romHi := rb.extractLsb 6 5, romLo := rb.extractLsb 4 0, ramBank := kb, mode := md }

/-- Scheme3 registers with an enable and a selection. -/
def three (en : Bool) (sel : Select) : Scheme3Regs :=
  { Scheme3Regs.reset with
    enable := en, select := sel, live := ⟨1, 2, 3, 4, 0x40⟩, snap := ⟨7, 8, 9, 10, 0x41⟩ }

/-- The state an operation leads to. -/
def after (r : Result) : Option State :=
  match r with
  | .next s => some s
  | .fault _ => none
  | .refused _ => none

/-- The outcome an operation shows at the bus port. -/
def shown (r : Result) : Option BusOutcome := (after r).bind (·.ports.outcome)

/-- The Scheme1 registers an operation leaves. -/
def regs1 (r : Result) : Option Scheme1Regs :=
  (after r).bind fun s => match s.bank with
    | .scheme1 x => some x
    | _ => none

/-- The Scheme3 registers an operation leaves. -/
def regs3 (r : Result) : Option Scheme3Regs :=
  (after r).bind fun s => match s.bank with
    | .scheme3 x => some x
    | _ => none

/-- The fatal record an operation leaves. -/
def fatalOf (r : Result) : Option ErrorRecord := (after r).bind (·.fatal)

/-! ### Scheme None and Forward -/

/-- VN.3: no bank register takes part. -/
theorem test_nRdRom : shown (exec (.nRdRom 0x4000) (base .noController)) = some (.data 0x01) := by decide

/-- VN.10 -/
theorem test_nRdRom_beyond_image :
    fatalOf (exec (.nRdRom 0x4000) { base .noController with session := { session with romLen := 16384 } }) =
      some ⟨.offsetOutOfRange, 0x4000, 0x00, .none⟩ := by decide

/-- VN.11 -/
theorem test_nWrRom : shown (exec (.nWrRom 0x4000 0) (base .noController)) = some .ack := by decide

/-- VN.6 -/
theorem test_nRdX :
    fatalOf (exec (.nRdX 0xA000) (base .noController)) = some ⟨.unmappedAddress, 0xA000, 0x00, .none⟩ := by
  decide

/-- VN.7 -/
theorem test_nWrX :
    fatalOf (exec (.nWrX 0xB000 0x12) (base .noController)) =
      some ⟨.unmappedAddress, 0xB000, 0x12, .none⟩ := by decide

/-- VN.9 -/
theorem test_fwd8 : shown (exec (.fwd8 .none .write 0x8000 1) (base .noController)) = some .forward := by
  decide

/-- VN.8 -/
theorem test_fwdC : shown (exec (.fwdC .none .read 0xC000 0) (base .noController)) = some .forward := by
  decide

/-! ### Scheme1 -/

/-- V1.3 -/
theorem test_s1WrRamen_sets :
    regs1 (exec (.s1WrRamen 0x1234 0xFA) (base (.scheme1 (one false 0x01 0 .rom)))) =
      some (one true 0x01 0 .rom) := by decide

/-- V1.4 -/
theorem test_s1WrRamen_clears :
    regs1 (exec (.s1WrRamen 0x0000 0xA0) (base (.scheme1 (one true 0x01 0 .rom)))) =
      some (one false 0x01 0 .rom) := by decide

/-- V1.11 -/
theorem test_s1WrRomlo_coerces_low_field :
    regs1 (exec (.s1WrRomlo 0x2000 0x00) (base (.scheme1 (one false 0x41 0 .rom)))) =
      some (one false 0x41 0 .rom) := by decide

/-- V1.9 -/
theorem test_s1WrRomlo_ignores_high_bits :
    regs1 (exec (.s1WrRomlo 0x3FFF 0xE5) (base (.scheme1 (one false 0x01 0 .rom)))) =
      some (one false 0x05 0 .rom) := by decide

/-- V1.14 -/
theorem test_s1WrUpper_rom_mode :
    regs1 (exec (.s1WrUpper 0x4000 0xFF) (base (.scheme1 (one false 0x01 0 .rom)))) =
      some (one false 0x61 0 .rom) := by decide

/-- V1.13 -/
theorem test_s1WrUpper_ram_mode :
    regs1 (exec (.s1WrUpper 0x4000 0x02) (base (.scheme1 (one false 0x01 0 .ram)))) =
      some (one false 0x01 2 .ram) := by decide

/-- V1.16 -/
theorem test_s1WrMode :
    regs1 (exec (.s1WrMode 0x7FFF 0xFE) (base (.scheme1 (one false 0x01 0 .ram)))) =
      some (one false 0x01 0 .rom) := by decide

/-- V1.21 -/
theorem test_s1RdRom0 :
    shown (exec (.s1RdRom0 0x0150) (base (.scheme1 (one false 0x03 0 .rom)))) = some (.data 0x50) := by decide

/-- V1.28: in `RAM` mode the upper bits are masked off. -/
theorem test_s1RdRomx_ram_mode :
    shown (exec (.s1RdRomx 0x4000) (base (.scheme1 (one false 0x41 0 .ram)))) = some (.data 0x01) := by decide

/-- V1.27 -/
theorem test_s1RdRomx_beyond_image :
    fatalOf (exec (.s1RdRomx 0x4000) (base (.scheme1 (one false 0x08 0 .rom)))) =
      some ⟨.offsetOutOfRange, 0x4000, 0x00, .scheme1⟩ := by decide

/-- V1.31 -/
theorem test_s1RdXram_closed :
    shown (exec (.s1RdXram 0xA000) (base (.scheme1 (one true 0x01 0 .rom)))) = some (.data 0xFF) := by decide

/-- V1.32 -/
theorem test_s1RdXram_open :
    shown (exec (.s1RdXram 0xA000) (base (.scheme1 (one true 0x01 0 .ram)))) = some (.data 0xEE) := by decide

/-- V1.33, in bank 1 of a 16 KiB image: `RAM[8197] = 0x77`. -/
theorem test_s1WrXram :
    (after (exec (.s1WrXram 0xA005 0x77) (base (.scheme1 (one true 0x01 1 .ram))))).map (·.ram) =
      some [(0, 0xEE), (8197, 0x77)] := by decide

/-- V1.38 -/
theorem test_s1WrXram_beyond_image :
    fatalOf (exec (.s1WrXram 0xA000 0x22)
      { base (.scheme1 (one true 0x01 0 .ram)) with session := { session with ramSize := 0 } }) =
      some ⟨.offsetOutOfRange, 0xA000, 0x22, .scheme1⟩ := by decide

/-! ### Scheme3 -/

/-- V3.3 -/
theorem test_s3WrEn :
    (regs3 (exec (.s3WrEn 0x0000 0x3A) (base (.scheme3 (three false .undefined))))).map (·.enable) =
      some true := by decide

/-- V3.5 -/
theorem test_s3WrRomb_coerces :
    (regs3 (exec (.s3WrRomb 0x2000 0x80) (base (.scheme3 (three false .undefined))))).map (·.romBank) =
      some 1 := by decide

/-- V3.6 -/
theorem test_s3WrRomb_ignores_bit7 :
    (regs3 (exec (.s3WrRomb 0x2000 0xFF) (base (.scheme3 (three false .undefined))))).map (·.romBank) =
      some 127 := by decide

/-- V3.8 -/
theorem test_s3WrSel :
    [0x00#8, 0x03, 0x08, 0x09, 0x0A, 0x0B, 0x0C, 0x04, 0x07, 0x0D, 0x10, 0x89, 0xFF].map selectOf =
      [.ramBank 0, .ramBank 3, .rtc .S, .rtc .M, .rtc .H, .rtc .DL, .rtc .DH, .undefined, .undefined,
       .undefined, .undefined, .undefined, .undefined] := by decide

/-- V6.3: an undefined selection is not fatal. -/
theorem test_s3WrSel_undefined :
    fatalOf (exec (.s3WrSel 0x4000 0x05) (base (.scheme3 (three true (.ramBank 0))))) = none ∧
    (regs3 (exec (.s3WrSel 0x4000 0x05) (base (.scheme3 (three true (.ramBank 0)))))).map (·.select) =
      some .undefined := by decide

/-- V3.9, its second write. -/
theorem test_s3WrLatch_copies :
    (regs3 (exec (.s3WrLatch 0x6000 1) (base (.scheme3 { three true .undefined with latch := .armed })))).map
      (fun r => (r.snap, r.latch)) = some (⟨1, 2, 3, 4, 0x40⟩, .idle) := by decide

/-- V3.15, its second write. -/
theorem test_s3WrLatch_whole_byte :
    (regs3 (exec (.s3WrLatch 0x6000 0x81)
      (base (.scheme3 { three true .undefined with latch := .armed })))).map (fun r => (r.snap, r.latch)) =
      some (⟨7, 8, 9, 10, 0x41⟩, .idle) := by decide

/-- R124: the fixed window ignores `rom_bank`. -/
theorem test_s3RdRom0 :
    shown (exec (.s3RdRom0 0x0150) (base (.scheme3 { three true .undefined with romBank := 5 }))) =
      some (.data 0x50) := by decide

/-- V3.20 -/
theorem test_s3RdRomx :
    shown (exec (.s3RdRomx 0x4000) (base (.scheme3 { three true .undefined with romBank := 5 }))) =
      some (.data 0x05) := by decide

/-- V3.24: the snapshot, not the live register. -/
theorem test_s3RdX_snapshot :
    shown (exec (.s3RdX 0xA000) (base (.scheme3 (three true (.rtc .DH))))) = some (.data 0x41) := by decide

/-- V3.30: the gate is checked before the bounds. -/
theorem test_s3RdX_gate_before_bounds :
    shown (exec (.s3RdX 0xA000) (base (.scheme3 (three false (.ramBank 3))))) = some (.data 0xFF) := by decide

/-- V3.25 -/
theorem test_s3WrX_live :
    (regs3 (exec (.s3WrX 0xA000 0x1E) (base (.scheme3 (three true (.rtc .S)))))).map
      (fun r => (r.live.seconds, r.snap.seconds)) = some (30, 7) := by decide

/-- V3.28: `RAM[16] = 0x33`. -/
theorem test_s3WrX_ram :
    (after (exec (.s3WrX 0xA010 0x33) (base (.scheme3 (three true (.ramBank 0)))))).map (·.ram) =
      some [(0, 0xEE), (16, 0x33)] := by decide

/-! ### The clock and the scheduler -/

/-- V4.2 to V4.8 -/
theorem test_secondAdvance :
    secondAdvance ⟨0, 0, 0, 0, 0⟩ = ⟨1, 0, 0, 0, 0⟩ ∧ secondAdvance ⟨59, 0, 0, 0, 0⟩ = ⟨0, 1, 0, 0, 0⟩ ∧
    secondAdvance ⟨59, 59, 0, 0, 0⟩ = ⟨0, 0, 1, 0, 0⟩ ∧ secondAdvance ⟨59, 59, 23, 0, 0⟩ = ⟨0, 0, 0, 1, 0⟩ ∧
    secondAdvance ⟨59, 59, 23, 255, 0⟩ = ⟨0, 0, 0, 0, 1⟩ ∧
    secondAdvance ⟨59, 59, 23, 255, 1⟩ = ⟨0, 0, 0, 0, 0x80⟩ ∧
    secondAdvance ⟨59, 59, 23, 255, 0x81⟩ = ⟨0, 0, 0, 0, 0x80⟩ := by decide

/-- V4.9 to V4.12 -/
theorem test_secondAdvance_corners :
    secondAdvance ⟨59, 59, 23, 255, 0x3F⟩ = ⟨0, 0, 0, 0, 0xBE⟩ ∧
    secondAdvance ⟨60, 0, 0, 0, 0⟩ = ⟨61, 0, 0, 0, 0⟩ ∧ secondAdvance ⟨255, 5, 0, 0, 0⟩ = ⟨0, 5, 0, 0, 0⟩ ∧
    secondAdvance ⟨59, 60, 0, 0, 0⟩ = ⟨0, 61, 0, 0, 0⟩ := by decide

/-- V4.13, its third tick: the prescaler clears and one second passes. -/
theorem test_tmr_third_tick :
    (regs3 (exec .tmr { base (.scheme3 { Scheme3Regs.reset with rtcSub := 2 }) with phase := .tmr })).map
      (fun r => (r.rtcSub, r.live.seconds)) = some (0, 1) := by decide

/-- P5, the end of tick 1: the second call of the CPU core is made before its fatal transaction. -/
theorem test_tmr_raises_cpu :
    (after (exec .tmr { base .noController with phase := .tmr, cycleCounter := 0 })).map
      (fun s => (s.phase, s.cycleCounter, s.ports.raised)) = some (.cpu, 1, [.cpuAdvance]) := by decide

/-- V5.2: the third tick of three ends the frame. -/
theorem test_tmr_ends_frame :
    (after (exec .tmr { base .noController with phase := .tmr, cycleCounter := 2 })).map
      (fun s => (s.phase, s.cycleCounter, s.ports.call, s.ports.raised)) =
        some (.yield, 3, some .timerAdvance, []) := by decide

/-- P4, step 12 -/
theorem test_poll :
    (after (exec .poll { base .noController with phase := .poll, cycleCounter := 3 })).map
      (fun s => (s.phase, s.cycleCounter, s.ports.call, s.ports.raised)) =
        some (.cpu, 0, some .pollInput, [.pollInput, .cpuAdvance]) := by decide

/-- R159 -/
theorem test_cpu :
    (after (exec .cpu (base .noController))).map (fun s => (s.phase, s.ports.call, s.ports.raised)) =
      some (.disp, some .cpuAdvance, [.displayAdvance]) := by decide

/-- R160 -/
theorem test_disp :
    (after (exec .disp { base .noController with phase := .disp })).map
      (fun s => (s.phase, s.ports.call, s.ports.raised)) =
        some (.tmr, some .displayAdvance, [.timerAdvance]) := by decide

/-- P4, steps 11 and 22 -/
theorem test_yield :
    (after (exec .yield { base .noController with phase := .yield, exitLevels := [false, true] })).map
      (fun s => (s.phase, s.exitLevels)) = some (.poll, [true]) ∧
    (after (exec .yield { base .noController with phase := .yield, exitLevels := [true] })).map (·.phase) =
      some .stopped := by decide

/-- V5.5 and R163 -/
theorem test_stopped :
    (after (exec .stopped { base .noController with phase := .stopped })).map (·.phase) = some .stopped := by
  decide

/-- P5, its last line: after a fatal error a read is refused, with no outcome. -/
theorem test_refused_while_fatal :
    (after (exec (.nRdRom 0) (fatalEntry .unmappedAddress 0xA000 0 (base .noController)))).map
      (fun s => (s.ports.outcome, s.fatal)) =
      some (none, some ⟨.unmappedAddress, 0xA000, 0x00, .none⟩) := by decide

/-- P5, the fault in a tick: the stage's step takes the read and stops the block. -/
theorem test_step_takes_transaction :
    (after (step { base .noController with events := [.read 0xA000, .done] })).map
      (fun s => (s.phase, s.cycleCounter, s.events)) = some (.stopped, 1, [.done]) := by decide

/-! ### Placing a word of every row -/

/-- One word for each row of spec/opcode_table.json: its match value, or its phase code. -/
def rowWords : List (Nat × Nat) :=
  BusRow.all.map (fun r => (32, r.pattern.1.toNat)) ++ [(8, 0), (8, 1), (8, 2), (8, 3), (8, 4), (8, 5)]

theorem test_every_row_is_fetched :
    rowWords.all (fun p =>
      match decodeTableWord p.1 p.2, decode (fetchWord (State.reset.withFetchWord p.1 p.2)) with
      | some i, .ok j => i == j
      | _, _ => false) = true := by decide

theorem test_every_row_runs_after_reset :
    rowWords.all (fun p => (after (step (State.reset.withFetchWord p.1 p.2))).isSome) = true := by decide

/-! ### Witnesses: states and operands that meet a statement's hypotheses -/

theorem witness_DecodeOfEncodeIsIdentity :
    (Instr.s1RdRomx 0x7FFF).wf = true ∧ (Instr.fwdC .scheme3 .write 0xFFFF 0xFF).wf = true := by decide

theorem witness_EncodeOfDecodeKeepsWord : decode (.bus 0x7FFFF01) = .ok (.fwdC .scheme3 .write 0xFFFF 1) := by
  decide

theorem witness_ExactlyOneRowMatches :
    fieldS 0x7FFFFFF ≠ 0b10 ∧ fieldS 0x0000000 ≠ 0b10 ∧ fieldS 0x5FFFFFF = 0b10 := by decide

theorem witness_StepRunsFetchedInstr :
    decode (fetchWord { base .noController with events := [.read 0x7FFF] }) = .ok (.nRdRom 0x7FFF) := by decide

theorem witness_NextWordIsTransactionOrPhase :
    (base .noController).phase.isStage = true ∧
    { base .noController with events := [.read 0, .done] }.events = .read 0 :: [.done] ∧
    { base .noController with events := [.write 0 1] }.events = .write 0 1 :: [] ∧
    { base .noController with events := [.done] }.events = .done :: [] ∧
    (base .noController).events = [] ∧ { base .noController with phase := .poll }.phase = .poll ∧
    { base .noController with phase := .yield }.phase = .yield ∧
    { base .noController with phase := .stopped }.phase = .stopped := by decide

/-- The last byte inside a one-bank image and the first beyond it. -/
theorem witness_NoneRomRead :
    let s := { base .noController with session := { session with romLen := 16384 } }
    s.fatal = none ∧ s.bank = .noController ∧ (0x3FFF#16).toNat < s.session.romLen ∧
      s.session.romLen ≤ (0x4000#16).toNat := by decide

theorem witness_NoneRomWriteDiscarded :
    (base .noController).fatal = none ∧ (base .noController).bank = .noController := by decide

theorem witness_NoneExternalWindowUnmapped :
    (base .noController).fatal = none ∧ (base .noController).bank = .noController := by decide

theorem witness_ForwardedTransactions : (base (.scheme1 (one true 1 0 .ram))).fatal = none := by decide

/-- On a one-bank image, with a write beyond it (VN.11). -/
theorem witness_NoneSessionIsLiteralRom :
    let s := { base .noController with session := { session with romLen := 16384 } }
    let xs : List Access := [.write 0x4000 3, .read 0x3FFF, .read 0x9FFF, .write 0xC000 1]
    s.fatal = none ∧ s.bank = .noController ∧
      (∀ x ∈ xs, ¬ (0xA000 ≤ x.addr.toNat ∧ x.addr.toNat ≤ 0xBFFF)) ∧
      (∀ a : Addr, Access.read a ∈ xs → a.toNat < 0x8000 → a.toNat < s.session.romLen) ∧
      (0x3FFF#16).toNat < 0x8000 ∧ (0x3FFF#16).toNat < s.session.romLen := by
  refine ⟨rfl, rfl, by simp [Access.addr], fun a ha h => ?_, by decide⟩
  simp only [List.mem_cons, List.not_mem_nil, Access.read.injEq, reduceCtorEq, false_or, or_false] at ha
  rcases ha with rfl | rfl
  · decide
  · exact absurd h (by decide)

/-- For S1RamEnableWrite, S1RomLowWrite and S1ModeWrite. -/
theorem witness_S1ControlWrites :
    let s := base (.scheme1 (one false 0x41 0 .rom))
    s.fatal = none ∧ s.bank = .scheme1 (one false 0x41 0 .rom) := by decide

theorem witness_S1UpperWrite :
    (base (.scheme1 (one false 0x41 0 .rom))).fatal = none ∧
    (base (.scheme1 (one false 0x41 0 .rom))).bank = .scheme1 (one false 0x41 0 .rom) ∧
    (one false 0x41 0 .rom).mode = .rom ∧
    (base (.scheme1 (one false 0x41 0 .ram))).fatal = none ∧
    (base (.scheme1 (one false 0x41 0 .ram))).bank = .scheme1 (one false 0x41 0 .ram) ∧
    (one false 0x41 0 .ram).mode = .ram := by decide

/-- Inside a one-bank image, and with no ROM at all. -/
theorem witness_FixedWindowReads :
    let s := base (.scheme1 (one false 1 0 .rom))
    let e := { base (.scheme3 (three false .undefined)) with session := { session with romLen := 0 } }
    s.fatal = none ∧ e.fatal = none ∧ (0x3FFF#16).toNat < 0x4000 ∧ s.scheme = .scheme1 ∧
      e.scheme = .scheme3 ∧ (0x3FFF#16).toNat < s.session.romLen ∧
      e.session.romLen ≤ (0x0000#16).toNat := by decide

/-- Banks 7 and 8 of an image of eight banks. -/
theorem witness_S1SwitchableRead :
    let r := one false 0x07 0 .rom
    let q := one false 0x08 0 .rom
    (base (.scheme1 r)).fatal = none ∧ (base (.scheme1 r)).bank = .scheme1 r ∧
    (base (.scheme1 q)).fatal = none ∧ (base (.scheme1 q)).bank = .scheme1 q ∧
    131071 = (if r.mode = .rom then r.romBank.toNat else r.romBank.toNat % 32) * 16384 +
      (0x7FFF#16).toNat % 16384 ∧ 131071 < session.romLen ∧
    131072 = (if q.mode = .rom then q.romBank.toNat else q.romBank.toNat % 32) * 16384 +
      (0x4000#16).toNat % 16384 ∧ session.romLen ≤ 131072 := by decide

/-- For S1ExternalRead and S1ExternalWrite: closed; open at the last byte of a 16 KiB image; open at the
first byte beyond it. -/
theorem witness_S1ExternalWindow :
    let c := one true 1 1 .rom
    let r := one true 1 1 .ram
    let q := one true 1 2 .ram
    (base (.scheme1 c)).fatal = none ∧ (base (.scheme1 c)).bank = .scheme1 c ∧
    (base (.scheme1 r)).fatal = none ∧ (base (.scheme1 r)).bank = .scheme1 r ∧
    (base (.scheme1 q)).fatal = none ∧ (base (.scheme1 q)).bank = .scheme1 q ∧
    (base (.scheme1 r)).ram.wf ∧ ¬ (c.ramEnable = true ∧ c.mode = .ram) ∧
    r.ramEnable = true ∧ r.mode = .ram ∧ 16383 = r.ramBank.toNat * 8192 + (0xBFFF#16).toNat % 8192 ∧
    16383 < session.ramSize ∧ q.ramEnable = true ∧ q.mode = .ram ∧
    16384 = q.ramBank.toNat * 8192 + (0xA000#16).toNat % 8192 ∧ session.ramSize ≤ 16384 := by decide

theorem witness_S1DisabledWindowIsInert :
    (base (.scheme1 (one true 1 0 .ram))).fatal = none ∧ (0x1FFF#16).toNat < 0x2000 ∧
    (0xA0#8).toNat % 16 ≠ 10 ∧ 0xA000 ≤ (0xBFFF#16).toNat ∧ (0xBFFF#16).toNat ≤ 0xBFFF := by decide

theorem witness_BankWriteThenReadShowsBank :
    (base (.scheme1 (one false 1 0 .rom))).fatal = none ∧ (one false 1 0 .rom).romHi = 0 ∧
    (one false 1 0 .rom).mode = .rom ∧ 0x2000 ≤ (0x3FFF#16).toNat ∧ (0x3FFF#16).toNat ≤ 0x3FFF ∧
    0x4000 ≤ (0x7FFF#16).toNat ∧ (0x7FFF#16).toNat ≤ 0x7FFF ∧
    131071 = max ((0x07#8).toNat % 32) 1 * 16384 + (0x7FFF#16).toNat % 16384 ∧
    131071 < session.romLen ∧ (base (.scheme3 (three false .undefined))).fatal = none ∧
    131071 = max ((0x87#8).toNat % 128) 1 * 16384 + (0x7FFF#16).toNat % 16384 := by decide

theorem witness_RepeatedControlWriteIsIdempotent :
    (∃ t, exec (.s1WrUpper 0x4000 3) (base (.scheme1 (one false 1 0 .ram))) = .next t) ∧
    (∃ t, exec (.s3WrLatch 0x6000 1)
      (base (.scheme3 { three true .undefined with latch := .armed })) = .next t) :=
  ⟨⟨_, rfl⟩, ⟨_, rfl⟩⟩

/-- For S3EnableWrite, S3RomBankWrite, S3SelectorWrite and S3LatchWrite; values at the clauses' boundaries. -/
theorem witness_S3ControlWrites :
    let r := three true (.ramBank 0)
    let q := { three true (.ramBank 0) with latch := .armed }
    (base (.scheme3 r)).fatal = none ∧ (base (.scheme3 r)).bank = .scheme3 r ∧
    (base (.scheme3 q)).fatal = none ∧ (base (.scheme3 q)).bank = .scheme3 q ∧
    (0x03#8).toNat ≤ 3 ∧ 3 < (0x04#8).toNat ∧ ¬ (8 ≤ (0x04#8).toNat ∧ (0x04#8).toNat ≤ 12) ∧
    ¬ (8 ≤ (0x0D#8).toNat ∧ (0x0D#8).toNat ≤ 12) ∧ ¬ (8 ≤ (0x07#8).toNat ∧ (0x07#8).toNat ≤ 12) ∧
    r.latch = .idle ∧ q.latch = .armed ∧ 2 ≤ (0x02#8).toNat := by decide

theorem witness_S3SwitchableRead :
    let r := { three true .undefined with romBank := 7 }
    let q := { three true .undefined with romBank := 8 }
    (base (.scheme3 r)).fatal = none ∧ (base (.scheme3 r)).bank = .scheme3 r ∧
    (base (.scheme3 q)).fatal = none ∧ (base (.scheme3 q)).bank = .scheme3 q ∧
    131071 = r.romBank.toNat * 16384 + (0x7FFF#16).toNat % 16384 ∧ 131071 < session.romLen ∧
    131072 = q.romBank.toNat * 16384 + (0x4000#16).toNat % 16384 ∧ session.romLen ≤ 131072 := by decide

/-- For S3ExternalRead and S3ExternalWrite: disabled, undefined, each RTC register, and a RAM bank at the
last byte inside and the first beyond. -/
theorem witness_S3ExternalWindow :
    (∀ r ∈ [three false (.rtc .S), three true .undefined, three true (.rtc .S), three true (.rtc .M),
        three true (.rtc .H), three true (.rtc .DL), three true (.rtc .DH), three true (.ramBank 1),
        three true (.ramBank 2)],
      (base (.scheme3 r)).fatal = none ∧ (base (.scheme3 r)).bank = .scheme3 r ∧
      (base (.scheme3 r)).ram.wf) ∧
    (three false (.rtc .S)).enable = false ∧ (three true .undefined).enable = true ∧
    (three true .undefined).select = .undefined ∧ (three true (.rtc .DH)).select = .rtc .DH ∧
    (three true (.ramBank 1)).select = .ramBank 1 ∧
    16383 = (1#2).toNat * 8192 + (0xBFFF#16).toNat % 8192 ∧ 16383 < session.ramSize ∧
    16384 = (2#2).toNat * 8192 + (0xA000#16).toNat % 8192 ∧ session.ramSize ≤ 16384 := by decide

theorem witness_RtcWriteLatchReadRoundTrip :
    let r := three true (.rtc .DH)
    (base (.scheme3 r)).fatal = none ∧ (base (.scheme3 r)).bank = .scheme3 r ∧ r.enable = true ∧
    r.select = .rtc .DH ∧ 0xA000 ≤ (0xA000#16).toNat ∧ (0xBFFF#16).toNat ≤ 0xBFFF ∧
    0x6000 ≤ (0x6000#16).toNat ∧ (0x7FFF#16).toNat ≤ 0x7FFF := by decide

/-- With a 0 immediately before a 1, and without. -/
theorem witness_LatchCopiesExactlyOnZeroThenOne :
    let r := three false .undefined
    (base (.scheme3 r)).fatal = none ∧ (base (.scheme3 r)).bank = .scheme3 r ∧ r.latch = .idle ∧
    (∀ w ∈ [(0x6000#16, 0#8), (0x7FFF#16, 1#8)], 0x6000 ≤ w.1.toNat ∧ w.1.toNat ≤ 0x7FFF) ∧
    [0x00#8, 0x01#8] <:+: [0x02#8, 0x00#8, 0x01#8] ∧ ¬ [0x00#8, 0x01#8] <:+: [0x00#8, 0x02#8, 0x01#8] :=
  ⟨rfl, rfl, rfl, by simp, ⟨[0x02#8], [], rfl⟩, by
    simp [List.infix_cons_iff]⟩

theorem witness_SnapshotWrittenOnlyByLatchCopy :
    let r := { three true .undefined with latch := .armed }
    let s := { base (.scheme3 r) with events := [.write 0x6000 1] }
    s.fatal = none ∧ s.bank = .scheme3 r ∧ r.latch = .armed ∧
    ∃ t r', t.bank = .scheme3 r' ∧ step s = .next t ∧ r'.snap ≠ r.snap :=
  ⟨rfl, rfl, rfl, _, _, rfl, rfl, by decide⟩

theorem witness_LiveCountersNotReadable :
    (base (.scheme3 (three true (.rtc .S)))).bank = .scheme3 (three true (.rtc .S)) := by decide

/-- The last byte of the image through a Scheme1 window, and through a Scheme3 window. -/
theorem witness_RamReadAfterWrite :
    (base (.scheme1 (one true 1 1 .ram))).fatal = none ∧ (base (.scheme1 (one true 1 1 .ram))).ram.wf ∧
    0xA000 ≤ (0xBFFF#16).toNat ∧ (0xBFFF#16).toNat ≤ 0xBFFF ∧
    (1#2).toNat * 8192 + (0xBFFF#16).toNat % 8192 < session.ramSize ∧
    (one true 1 1 .ram).ramEnable = true ∧ (one true 1 1 .ram).mode = .ram ∧
    (one true 1 1 .ram).ramBank = 1 ∧ (base (.scheme3 (three true (.ramBank 1)))).fatal = none ∧
    (three true (.ramBank 1)).enable = true ∧ (three true (.ramBank 1)).select = .ramBank 1 := by decide

/-- The last second of day 511, a second that does not carry, minutes and hours beyond their range. -/
theorem witness_SecondAdvanceCountsOneSecond :
    let x : RtcRegs := ⟨59, 59, 23, 255, 0x3F⟩
    let y : RtcRegs := ⟨60, 0, 0, 0, 0⟩
    let z : RtcRegs := ⟨59, 255, 0, 0, 0⟩
    let w : RtcRegs := ⟨59, 59, 24, 0, 0⟩
    x.normal ∧ x.time + 1 = 44236800 ∧ y.seconds.toNat ≠ 59 ∧ z.seconds.toNat = 59 ∧
    z.minutes.toNat ≠ 59 ∧ w.seconds.toNat = 59 ∧ w.minutes.toNat = 59 ∧ w.hours.toNat ≠ 23 := by decide

/-- No clock; a halted clock; the last tick of a second; another tick. -/
theorem witness_TimerStageEndsTick :
    let halted := three true .undefined
    let last : Scheme3Regs := { Scheme3Regs.reset with rtcSub := 2 }
    let first : Scheme3Regs := Scheme3Regs.reset
    let s : State := { base .noController with phase := .tmr }
    s.fatal = none ∧ s.phase = .tmr ∧ s.bank = .noController ∧
    (∀ r : Scheme3Regs, BankController.noController ≠ .scheme3 r) ∧
    halted.live.dayHigh.getLsbD 6 = true ∧ last.live.dayHigh.getLsbD 6 = false ∧
    last.rtcSub + 1 = session.rtcTicksPerSecond ∧ first.live.dayHigh.getLsbD 6 = false ∧
    first.rtcSub + 1 ≠ session.rtcTicksPerSecond :=
  by
  refine ⟨rfl, rfl, rfl, ?_, by decide⟩
  intro r
  simp

theorem witness_HaltedClockStands :
    let s := { base (.scheme3 (three true .undefined)) with phase := .tmr }
    s.bank = .scheme3 (three true .undefined) ∧
    (three true .undefined).live.dayHigh.getLsbD 6 = true ∧ s.events = [] ∧
    ∃ t, runSteps 2 s = .next t :=
  ⟨rfl, by decide, rfl, _, rfl⟩

/-- The clock's premises at their smallest values. -/
theorem witness_ClockShowsElapsedSeconds :
    1 ≤ 1 ∧ 44236799 < 44236800 ∧ Scheme3Regs.reset = (rtcTick 1)^[0 * 1] Scheme3Regs.reset := by decide

theorem witness_PollStartsFrame :
    { base .noController with phase := .poll }.fatal = none ∧
    { base .noController with phase := .poll }.phase = .poll := by decide

/-- Each stage, without a fatal record and, for `TMR`, with one. -/
theorem witness_CpuAndDisplayStagesAdvance :
    (base .noController).phase = .cpu ∧ { base .noController with phase := .disp }.phase = .disp ∧
    { base .noController with
      phase := .tmr, fatal := some ⟨.unmappedAddress, 0, 0, .none⟩ }.phase = .tmr ∧
    { base .noController with
      phase := .tmr, fatal := some ⟨.unmappedAddress, 0, 0, .none⟩ }.fatal ≠ none := by decide

theorem witness_YieldSamplesExit :
    let s := { base .noController with phase := .yield, exitLevels := [true] }
    let q := { base .noController with phase := .yield }
    s.fatal = none ∧ s.phase = .yield ∧ s.exitLevels = true :: [] ∧ q.fatal = none ∧ q.phase = .yield ∧
    q.exitLevels = [] := by decide

theorem witness_StoppedChangesNothing : { base .noController with phase := .stopped }.phase = .stopped := by
  decide

/-- A stage whose transactions are not fatal, and one whose second transaction is. -/
theorem witness_StageRunsTransactionsInOrder :
    let good : List Access := [.read 0x4000, .write 0x2000 3]
    let bad : List Access := [.read 0x4000, .read 0xA000, .read 0x0000]
    let s := { base .noController with events := good.map Access.event ++ CoreEvent.done :: [.done] }
    let q := { base .noController with events := bad.map Access.event ++ CoreEvent.done :: [.done] }
    s.phase.isStage = true ∧ s.fatal = none ∧ q.phase.isStage = true ∧ q.fatal = none ∧
    (∃ t, runScript good { s with events := CoreEvent.done :: [.done] } = .next t ∧ t.fatal = none) ∧
    (∃ t, runScript bad { q with events := CoreEvent.done :: [.done] } = .next t ∧ t.fatal ≠ none) :=
  ⟨rfl, rfl, rfl, rfl, ⟨_, rfl, by decide⟩, ⟨_, rfl, by decide⟩⟩

/-- A state of the invariant in each phase the statements start from. -/
theorem base_inv (b : BankController) (hb : b.legal 3) (hs : b.scheme ≠ .unsupported) : (base b).Inv :=
  ⟨(by decide : 1 ≤ session.mainCycles), (by decide : 1 ≤ session.rtcTicksPerSecond), hb,
    (by decide : counterLegal 3 .cpu 1), (by decide : Memory.wf [(0, 0xEE)]),
    (by decide : Memory.fits [(0, 0xEE)] session.ramSize), fun h => absurd rfl h, fun h => absurd h hs⟩

/-- `POLL`, whatever the cores do next. -/
theorem poll_inv (evs : List CoreEvent) :
    State.Inv { base .noController with phase := .poll, events := evs } :=
  ⟨(by decide : 1 ≤ session.mainCycles), (by decide : 1 ≤ session.rtcTicksPerSecond), trivial,
    (by decide : counterLegal 3 .poll 1),
    (by decide : Memory.wf [(0, 0xEE)]), (by decide : Memory.fits [(0, 0xEE)] session.ramSize),
    fun h => absurd rfl h, fun h => nomatch h⟩

/-- A frame without a transaction; one whose cores issue some, none fatal; and P5: nothing in tick 1, a fatal
read in the CPU stage of tick 2, with poll 1, cpu 2, display 1 and timer 1 call made. -/
theorem witness_FrameIsMainCyclesTicks :
    let s := { base .noController with phase := .poll, events := [] }
    let r := { base .noController with phase := .poll, events := [.read 0x4000, .done, .write 0x2000 3] }
    let q := { base .noController with phase := .poll, events := [.done, .done, .done, .read 0xA000] }
    s.Inv ∧ s.phase = .poll ∧ s.events = [] ∧ 3 = s.session.mainCycles ∧ 8 < 3 * 3 ∧
    r.Inv ∧ r.phase = .poll ∧ (after (runSteps 12 r)).map (fun t => (t.phase, t.fatal)) = some (.yield, none) ∧
    q.Inv ∧ q.phase = .poll ∧
    (after (runSteps 5 q)).map (fun t => (t.fatal.isSome, t.cycleCounter)) = some (true, 1) ∧
    strobesIn 5 q = [.pollInput, .cpuAdvance, .displayAdvance, .timerAdvance, .cpuAdvance] :=
  ⟨poll_inv _, rfl, rfl, rfl, by decide, poll_inv _, rfl, by decide, poll_inv _, rfl, by decide, by decide⟩

/-- A transaction and a phase fetched. -/
theorem witness_PhasesFollowTheLoop :
    let s := { base .noController with events := [.read 0x4000] }
    s.fatal = none ∧ (∃ t, step s = .next t) ∧ (∃ w, fetchWord s = .bus w) ∧
    (∃ t, step (base .noController) = .next t) ∧ (∃ c, fetchWord (base .noController) = .phase c) :=
  ⟨rfl, ⟨_, rfl⟩, ⟨_, rfl⟩, ⟨_, rfl⟩, ⟨_, rfl⟩⟩

theorem witness_FatalEntryIsPrecise :
    encode (.nWrX 0xBFFF 0x12) = .bus 0x1BFFF12 ∧ (base .noController).fatal = none ∧
    ∃ t f, exec (.nWrX 0xBFFF 0x12) (base .noController) = .next t ∧ t.fatal = some f :=
  ⟨by decide, rfl, _, _, rfl, rfl⟩

/-- A stopped state of the invariant with a fatal record. -/
theorem witness_FatalRefusesEverything :
    let f : ErrorRecord := ⟨.unmappedAddress, 0xA000, 0, .none⟩
    let s := { base .noController with fatal := some f, phase := .stopped }
    s.fatal = some f ∧ (Instr.nRdRom 0).isBus = true ∧ s.Inv :=
  ⟨rfl, rfl, by decide, by decide, trivial, by decide, by decide, by decide, fun _ => rfl,
    fun h => absurd h (by decide)⟩

/-- A valid launch of any scheme. -/
def launchOf (sch : Scheme) : Launch := { scheme := sch, session := session, ramInit := [(0, 0xEE)] }

theorem witness_UnsupportedSchemeNeverRuns :
    (launchOf .unsupported).scheme = .unsupported ∧ (sessionStart (launchOf .unsupported)).isSome = true := by
  decide

theorem witness_EveryLegalStateHasNext : (base (.scheme1 (one true 1 0 .ram))).Inv :=
  base_inv _ (by decide) (by decide)

theorem witness_ReadsChangeNothing :
    (∃ t, transact (.read 0x4000) (base .noController) = .next t) ∧
    (∃ t, transact (.read 0xA000) (base .noController) = .next t) := ⟨⟨_, rfl⟩, ⟨_, rfl⟩⟩

/-- A write that changes a byte through each scheme's window. -/
theorem witness_RamChangesOnlyAtTranslatedOffset :
    (base (.scheme1 (one true 1 0 .ram))).ram.wf ∧
    (base (.scheme1 (one true 1 0 .ram))).ram.read 0 = 0xEE ∧
    (after (exec (.s1WrXram 0xA000 9) (base (.scheme1 (one true 1 0 .ram))))).map (·.ram.read 0) =
      some 9 ∧
    (base (.scheme3 (three true (.ramBank 0)))).ram.read 0 = 0xEE ∧
    (after (exec (.s3WrX 0xA000 9) (base (.scheme3 (three true (.ramBank 0)))))).map (·.ram.read 0) =
      some 9 := by decide

theorem witness_Scheme1RegistersWrittenByTheirOperation :
    (base (.scheme1 (one false 1 0 .ram))).bank = .scheme1 (one false 1 0 .ram) ∧
    ∃ t, exec (.s1WrUpper 0x4000 3) (base (.scheme1 (one false 1 0 .ram))) = .next t := ⟨rfl, _, rfl⟩

theorem witness_Scheme3RegistersWrittenByTheirOperation :
    (base (.scheme3 (three true (.rtc .H)))).bank = .scheme3 (three true (.rtc .H)) ∧
    ∃ t, exec (.s3WrX 0xA000 3) (base (.scheme3 (three true (.rtc .H)))) = .next t := ⟨rfl, _, rfl⟩

/-- A fatal transaction, and a phase. -/
theorem witness_SchedulerAndErrorFrame :
    (∃ t, exec (.nRdX 0xA000) (base .noController) = .next t ∧ t.phase ≠ (base .noController).phase) ∧
    (∃ t, exec .cpu (base .noController) = .next t) := ⟨⟨_, rfl, by decide⟩, ⟨_, rfl⟩⟩

theorem witness_LaunchInputsNeverChange : ∃ t, step (base .noController) = .next t := ⟨_, rfl⟩

/-- A valid launch of every scheme, and a launch whose ROM length is no multiple of 16384. -/
theorem witness_SessionStartBuildsState :
    (launchOf .none).valid ∧ (launchOf .scheme1).valid ∧ (launchOf .scheme3).valid ∧
    (launchOf .unsupported).valid ∧
    ¬ Launch.valid { launchOf .none with session := { session with romLen := 16385 } } :=
  ⟨by decide, by decide, by decide, by decide, by decide⟩

theorem witness_ResetIsLegal :
    (sessionStart (launchOf .none)).isSome = true ∧ (sessionStart (launchOf .scheme1)).isSome = true ∧
    (sessionStart (launchOf .scheme3)).isSome = true ∧
    (sessionStart (launchOf .unsupported)).isSome = true := by decide

theorem witness_StepKeepsInvariant :
    (base (.scheme3 (three true .undefined))).Inv ∧
    ∃ t, step (base (.scheme3 (three true .undefined))) = .next t :=
  ⟨base_inv _ (by decide) (by decide), _, rfl⟩

theorem witness_ReachableStatesAreLegal :
    ∃ s t, sessionStart (launchOf .scheme1) = some s ∧
      runSteps 3 { s with events := [.write 0x2000 0, .done], exitLevels := [true] } = .next t :=
  ⟨_, _, rfl, rfl⟩

end Sys2Proof.Tests
end

section
/-! PROOFS. The transactions of Scheme None (spec/40_scheme_none.md). -/

namespace Sys2Proof.Machine

theorem exec_nWrRom (a : Addr) (v : Byte) (s : State) :
    exec (.nWrRom a v) s = unlessFatal s (onNone s (ignoreWrite s)) := rfl

theorem ignoreWrite_eq_answered (s : State) : ignoreWrite s = .next (s.answered .ack) := rfl

/-- Settles O8: once the gates for a fatal record and for the scheme are passed, the row is the ignored
write, which looks at neither the address nor `ROM_LEN`. -/
theorem noneRomWriteDiscarded : Obligations.NoneRomWriteDiscarded := by
  intro s a v hfatal hbank
  calc exec (.nWrRom a v) s
      = unlessFatal s (onNone s (ignoreWrite s)) := exec_nWrRom a v s
    _ = onNone s (ignoreWrite s) := unlessFatal_of_none hfatal _
    _ = ignoreWrite s := onNone_of_bank hbank _
    _ = .next (s.answered .ack) := ignoreWrite_eq_answered s

end Sys2Proof.Machine
end

section
/-! PROOFS. The control-range writes of Scheme1 (spec/41_scheme1.md). -/

namespace Sys2Proof.Machine

theorem exec_s1WrRamen (a : Addr) (v : Byte) (s : State) :
    exec (.s1WrRamen a v) s = writeScheme1 s fun r => { r with ramEnable := enableOf v } := rfl

theorem exec_s1WrMode (a : Addr) (v : Byte) (s : State) :
    exec (.s1WrMode a v) s = writeScheme1 s fun r => { r with mode := modeOf v } := rfl

/-- A Scheme1 control write that passes the gates replaces the register group and answers `Ack`; every other
field keeps its value. -/
theorem writeScheme1_of_bank {s : State} {r : Scheme1Regs} (hfatal : s.fatal = none)
    (hbank : s.bank = .scheme1 r) (f : Scheme1Regs → Scheme1Regs) :
    writeScheme1 s f =
      .next { s with bank := .scheme1 (f r), ports := { outcome := some .ack } } := by
  rw [writeScheme1, unlessFatal_of_none hfatal, onScheme1_of_bank hbank]
  rfl

/-- Settles O12: the row is a control write of one field, and the nibble test of `enableOf` is the remainder
modulo 16. -/
theorem s1RamEnableWrite : Obligations.S1RamEnableWrite := by
  intro s r a v hfatal hbank
  rw [exec_s1WrRamen, writeScheme1_of_bank hfatal hbank, enableOf_eq]

/-- Settles O15: the row is a control write of one field, and the bit that `modeOf` reads is the remainder
modulo 2. -/
theorem s1ModeWrite : Obligations.S1ModeWrite := by
  intro s r a v hfatal hbank
  rw [exec_s1WrMode, writeScheme1_of_bank hfatal hbank, modeOf_eq]

end Sys2Proof.Machine
end

section
/-! PROOFS. The control-range writes of Scheme3 (spec/42_scheme3.md). -/

namespace Sys2Proof.Machine

theorem exec_s3WrRomb (a : Addr) (v : Byte) (s : State) :
    exec (.s3WrRomb a v) s = writeScheme3 s fun r => { r with romBank := bank7Of v } := rfl

/-- A Scheme3 control write that passes the gates replaces the register group and answers `Ack`; every other
field keeps its value. -/
theorem writeScheme3_of_bank {s : State} {r : Scheme3Regs} (hfatal : s.fatal = none)
    (hbank : s.bank = .scheme3 r) (f : Scheme3Regs → Scheme3Regs) :
    writeScheme3 s f =
      .next { s with bank := .scheme3 (f r), ports := { outcome := some .ack } } := by
  rw [writeScheme3, unlessFatal_of_none hfatal, onScheme3_of_bank hbank]
  rfl

/-- Settles O24: the row is a control write of one field, and coercing 0 to 1 on the low seven bits is the
maximum of the remainder modulo 128 and 1. -/
theorem s3RomBankWrite : Obligations.S3RomBankWrite := by
  intro s r a v hfatal hbank
  rw [exec_s3WrRomb, writeScheme3_of_bank hfatal hbank, bank7Of_eq]

end Sys2Proof.Machine
end

section
/-! PROOFS. What one operation does to the Scheme3 register group, and the snapshot of the real-time clock
(spec/43_rtc.md section 2). -/

namespace Sys2Proof.Machine

/-! ### The latch write and the clock tick -/

theorem exec_s3WrLatch (a : Addr) (v : Byte) (s : State) :
    exec (.s3WrLatch a v) s = writeScheme3 s fun r => r.latchWrite v := rfl

/-- The copying case of the latch protocol (R123). -/
theorem Scheme3Regs.latchWrite_one_of_armed {r : Scheme3Regs} (harmed : r.latch = .armed) :
    r.latchWrite 1 = { r.latchCopy with latch := .idle } := by
  simp [Scheme3Regs.latchWrite, harmed]

theorem exec_s3WrLatch_one_of_armed {s : State} {r : Scheme3Regs} (hfatal : s.fatal = none)
    (hbank : s.bank = .scheme3 r) (harmed : r.latch = .armed) (a : Addr) :
    exec (.s3WrLatch a 1) s =
      .next { s with
        bank := .scheme3 { r.latchCopy with latch := .idle }, ports := { outcome := some .ack } } := by
  rw [exec_s3WrLatch, writeScheme3_of_bank hfatal hbank, Scheme3Regs.latchWrite_one_of_armed harmed]

/-- The snapshot under a latch write: copied by 1 while armed, kept otherwise. -/
theorem Scheme3Regs.latchWrite_snap (r : Scheme3Regs) (v : Byte) :
    (r.latchWrite v).snap = if v = 1 ∧ r.latch = .armed then r.live else r.snap := by
  unfold Scheme3Regs.latchWrite
  split
  · next hzero => simp [hzero]
  · split <;> rfl

@[simp] theorem rtcTick_snap (n : Nat) (r : Scheme3Regs) : (rtcTick n r).snap = r.snap := by
  unfold rtcTick
  split
  · rfl
  · split <;> rfl

theorem State.rtcTick_bank_of_scheme3 {s : State} {r : Scheme3Regs} (hbank : s.bank = .scheme3 r) :
    s.rtcTick.bank = .scheme3 (Machine.rtcTick s.session.rtcTicksPerSecond r) := by
  simp [State.rtcTick, hbank]

theorem State.tickEnd_bank_of_scheme3 {s : State} {r : Scheme3Regs} (hbank : s.bank = .scheme3 r) :
    s.tickEnd.bank = .scheme3 (Machine.rtcTick s.session.rtcTicksPerSecond r) :=
  State.rtcTick_bank_of_scheme3 hbank

/-! ### The bank group after a gated or an image access -/

theorem readRom_bank {off : Nat} {a : Addr} {s t : State} (h : readRom off a s = .next t) :
    t.bank = s.bank := by
  rcases readRom_next h with ⟨-, rfl⟩ | ⟨-, rfl⟩ <;> rfl

theorem readRam_bank {off : Nat} {a : Addr} {s t : State} (h : readRam off a s = .next t) :
    t.bank = s.bank := by
  rcases readRam_next h with ⟨-, rfl⟩ | ⟨-, rfl⟩ <;> rfl

theorem writeRam_bank {off : Nat} {a : Addr} {v : Byte} {s t : State} (h : writeRam off a v s = .next t) :
    t.bank = s.bank := by
  rcases writeRam_next h with ⟨-, rfl⟩ | ⟨-, rfl⟩ <;> rfl

section Gates

variable {s t : State} {r : Scheme3Regs} (hbank : s.bank = .scheme3 r)

include hbank

/-- A Scheme None row that answers in a Scheme3 session was refused for a fatal record. -/
theorem gatedNone_bank_of_scheme3 {k : Result} (h : unlessFatal s (onNone s k) = .next t) :
    t.bank = .scheme3 r := by
  rcases unlessFatal_next h with ⟨f, -, rfl⟩ | ⟨-, h⟩
  · exact hbank
  · cases hbank.symm.trans (onNone_next h).1

/-- A Scheme1 row that answers in a Scheme3 session was refused for a fatal record. -/
theorem gatedScheme1_bank_of_scheme3 {k : Scheme1Regs → Result}
    (h : unlessFatal s (onScheme1 s k) = .next t) : t.bank = .scheme3 r := by
  rcases unlessFatal_next h with ⟨f, -, rfl⟩ | ⟨-, h⟩
  · exact hbank
  · obtain ⟨q, hq, -⟩ := onScheme1_next h
    cases hbank.symm.trans hq

/-- A Scheme3 row was refused for a fatal record, or ran on the session's registers. -/
theorem gatedScheme3_next {k : Scheme3Regs → Result} (h : unlessFatal s (onScheme3 s k) = .next t) :
    t.bank = .scheme3 r ∨ k r = .next t := by
  rcases unlessFatal_next h with ⟨f, -, rfl⟩ | ⟨-, h⟩
  · exact .inl hbank
  · rw [onScheme3_of_bank hbank] at h
    exact .inr h

theorem writeScheme3_bank {f : Scheme3Regs → Scheme3Regs} (h : writeScheme3 s f = .next t) :
    t.bank = .scheme3 r ∨ t.bank = .scheme3 (f r) := by
  refine (gatedScheme3_next hbank h).imp_right fun h => ?_
  cases h
  rfl

end Gates

/-! ### What one operation does to the Scheme3 registers -/

/-- What an operation may do to the Scheme3 registers, when `ticks` is `RTC_TICKS_PER_SECOND`: keep them, or
write the field that is the operation's own (R19 to R26). -/
inductive Scheme3Update (ticks : Nat) : Instr → Scheme3Regs → Scheme3Regs → Prop where
  | keep (i : Instr) (r : Scheme3Regs) : Scheme3Update ticks i r r
  | enable (a : Addr) (v : Byte) (r : Scheme3Regs) :
      Scheme3Update ticks (.s3WrEn a v) r { r with enable := enableOf v }
  | romBank (a : Addr) (v : Byte) (r : Scheme3Regs) :
      Scheme3Update ticks (.s3WrRomb a v) r { r with romBank := bank7Of v }
  | select (a : Addr) (v : Byte) (r : Scheme3Regs) :
      Scheme3Update ticks (.s3WrSel a v) r { r with select := selectOf v }
  | latch (a : Addr) (v : Byte) (r : Scheme3Regs) :
      Scheme3Update ticks (.s3WrLatch a v) r (r.latchWrite v)
  | live (a : Addr) (v : Byte) (x : RtcReg) (r : Scheme3Regs) (henable : r.enable = true)
      (hselect : r.select = .rtc x) :
      Scheme3Update ticks (.s3WrX a v) r { r with live := r.live.set x v }
  | tick (r : Scheme3Regs) : Scheme3Update ticks .tmr r (rtcTick ticks r)

section Update

variable {s t : State} {r : Scheme3Regs} (hbank : s.bank = .scheme3 r)

include hbank

/-- A write of the external window changes a register only through the open gate with an RTC register
selected, and then the live one (R128, R146). -/
theorem execS3WrX_bank {a : Addr} {v : Byte} (h : execS3WrX a v s = .next t) :
    t.bank = .scheme3 r ∨ ∃ x, r.enable = true ∧ r.select = .rtc x ∧
      t.bank = .scheme3 { r with live := r.live.set x v } := by
  rcases gatedScheme3_next hbank h with h | h
  · exact .inl h
  split at h
  · next henable =>
    split at h
    · exact .inl ((writeRam_bank h).trans hbank)
    · next x hselect => cases h; exact .inr ⟨x, henable, hselect, rfl⟩
    · cases h; exact .inl hbank
  · cases h; exact .inl hbank

theorem execS3RdX_bank {a : Addr} (h : execS3RdX a s = .next t) : t.bank = .scheme3 r := by
  rcases gatedScheme3_next hbank h with h | h
  · exact h
  split at h
  · split at h
    · exact (readRam_bank h).trans hbank
    all_goals cases h; exact hbank
  · cases h; exact hbank

theorem execS3WrSel_bank {a : Addr} {v : Byte} (h : execS3WrSel a v s = .next t) :
    t.bank = .scheme3 r ∨ t.bank = .scheme3 { r with select := selectOf v } := by
  refine (gatedScheme3_next hbank h).imp_right fun h => ?_
  dsimp only at h
  split at h <;> cases h <;> rfl

/-- A phase other than `TMR` leaves the bank group; `TMR` ticks the clock or, after a fatal error, leaves it
too. -/
theorem exec_phase_scheme3 {i : Instr} (hphase : i.isBus = false) (h : exec i s = .next t) :
    t.bank = .scheme3 r ∨
      i = .tmr ∧ t.bank = .scheme3 (rtcTick s.session.rtcTicksPerSecond r) := by
  rcases exec_phase_cases hphase h with ⟨-, -, ⟨-, rfl⟩ | ⟨-, rfl⟩⟩ | ⟨-, -, rfl⟩ | ⟨-, -, rfl⟩ |
    ⟨hi, -, ⟨-, rfl⟩ | ⟨-, rfl⟩⟩ | ⟨-, -, ⟨-, rfl⟩ | ⟨-, rfl⟩⟩ | ⟨-, -, rfl⟩
  case inr.inr.inr.inl.inr => exact .inr ⟨hi, State.tickEnd_bank_of_scheme3 hbank⟩
  all_goals exact .inl hbank

/-- Every operation that answers in a Scheme3 session updates the register group in the way `Scheme3Update`
allows it. -/
theorem exec_scheme3Update {i : Instr} (h : exec i s = .next t) :
    ∃ r', t.bank = .scheme3 r' ∧ Scheme3Update s.session.rtcTicksPerSecond i r r' := by
  cases i with
  | nRdRom | nWrRom | nRdX | nWrX => exact ⟨r, gatedNone_bank_of_scheme3 hbank h, .keep _ _⟩
  | s1WrRamen | s1WrRomlo | s1WrUpper | s1WrMode | s1RdRom0 | s1RdRomx | s1RdXram | s1WrXram =>
    exact ⟨r, gatedScheme1_bank_of_scheme3 hbank h, .keep _ _⟩
  | s3WrEn a v =>
    rcases writeScheme3_bank hbank h with h | h
    exacts [⟨_, h, .keep _ _⟩, ⟨_, h, .enable a v r⟩]
  | s3WrRomb a v =>
    rcases writeScheme3_bank hbank h with h | h
    exacts [⟨_, h, .keep _ _⟩, ⟨_, h, .romBank a v r⟩]
  | s3WrSel a v =>
    rcases execS3WrSel_bank hbank h with h | h
    exacts [⟨_, h, .keep _ _⟩, ⟨_, h, .select a v r⟩]
  | s3WrLatch a v =>
    rcases writeScheme3_bank hbank h with h | h
    exacts [⟨_, h, .keep _ _⟩, ⟨_, h, .latch a v r⟩]
  | s3RdRom0 | s3RdRomx =>
    exact ⟨r, (gatedScheme3_next hbank h).elim id fun h => (readRom_bank h).trans hbank, .keep _ _⟩
  | s3RdX a => exact ⟨r, execS3RdX_bank hbank h, .keep _ _⟩
  | s3WrX a v =>
    rcases execS3WrX_bank hbank h with h | ⟨x, henable, hselect, h⟩
    exacts [⟨_, h, .keep _ _⟩, ⟨_, h, .live a v x r henable hselect⟩]
  | fwd8 | fwdC =>
    rcases unlessFatal_next h with ⟨f, -, rfl⟩ | ⟨-, h⟩
    · exact ⟨r, hbank, .keep _ _⟩
    · cases h; exact ⟨r, by simpa using hbank, .keep _ _⟩
  | poll | cpu | disp | tmr | yield | stopped =>
    rcases exec_phase_scheme3 hbank rfl h with h | ⟨hi, h⟩
    · exact ⟨r, h, .keep _ _⟩
    · cases hi <;> exact ⟨_, h, .tick r⟩

end Update

/-- Only the latch write of 1 while armed changes the snapshot. -/
theorem Scheme3Update.latchCopy_of_snap_ne {ticks : Nat} {i : Instr} {r r' : Scheme3Regs}
    (h : Scheme3Update ticks i r r') (hsnap : r'.snap ≠ r.snap) :
    r.latch = .armed ∧ ∃ a, i = .s3WrLatch a 1 := by
  cases h with
  | keep | enable | romBank | select | live => exact absurd rfl hsnap
  | tick => exact absurd (rtcTick_snap ticks r) hsnap
  | latch a v =>
    by_cases hcopy : v = 1 ∧ r.latch = .armed
    · obtain ⟨rfl, harmed⟩ := hcopy
      exact ⟨harmed, a, rfl⟩
    · rw [Scheme3Regs.latchWrite_snap, if_neg hcopy] at hsnap
      exact absurd rfl hsnap

/-- Settles O32: the write of 1 while armed is the control write whose register function is the latch copy;
and a step is one operation on the state whose event is consumed, which keeps the registers, so the frame of
the operation's update says that no other step changes the snapshot. -/
theorem snapshotWrittenOnlyByLatchCopy : Obligations.SnapshotWrittenOnlyByLatchCopy := by
  refine ⟨fun s r a hfatal hbank harmed => ?_, fun s t r r' hbank hbank' hstep hsnap => ?_⟩
  · exact ⟨_, _, exec_s3WrLatch_one_of_armed hfatal hbank harmed a, rfl, rfl, rfl, rfl, rfl, rfl, rfl⟩
  · obtain ⟨i, hfetch, hexec⟩ := step_next hstep
    obtain ⟨q, hq, hupdate⟩ := exec_scheme3Update ((consume_bank s).trans hbank) hexec
    cases hbank'.symm.trans hq
    obtain ⟨harmed, a, rfl⟩ := hupdate.latchCopy_of_snap_ne hsnap
    exact ⟨harmed, a, hfetch⟩

end Sys2Proof.Machine
end

section
/-! PROOFS. The decoder and the encoder (spec/30_encoding.md): the rows of the decode map are disjoint and
cover every word of a live scheme, and a word is its four fields. -/

namespace Sys2Proof

/-! ### The row of a word -/

theorem BusRow.mem_all (r : BusRow) : r ∈ BusRow.all := by cases r <;> decide

/-- The scheme tag stands in the top two of the top six bits. -/
theorem fieldS_eq_headBits (t : BusWord) : fieldS t = (headBits t).extractLsb 5 4 := by
  apply BitVec.eq_of_getLsbD_eq
  intro k hk
  simp only [fieldS, headBits, BitVec.getLsbD_extractLsb]
  rcases (by omega : k = 0 ∨ k = 1) with rfl | rfl <;> rfl

/-- Among the 64 heads, each one of a live scheme is matched by one row. -/
theorem one_row_per_head : ∀ x : BitVec 6, x.extractLsb 5 4 ≠ 0b10 →
    (BusRow.all.filter (·.headHits x)).length = 1 := by decide

/-- Under a live scheme the decoder finds a row, and the rows that match are that one alone. -/
theorem exists_rowOf_unique {t : BusWord} (hlive : fieldS t ≠ 0b10) :
    ∃ q, rowOf t = some q ∧ ∀ r : BusRow, r.hits t = true ↔ r = q := by
  rw [fieldS_eq_headBits] at hlive
  obtain ⟨q, hq⟩ := List.length_eq_one_iff.1 (one_row_per_head _ hlive)
  refine ⟨q, ?_, fun r => ?_⟩
  · rw [rowOf_eq_rowOfHead, rowOfHead, ← List.head?_filter, hq]; rfl
  · have hmem : r ∈ BusRow.all.filter (·.headHits (headBits t)) ↔ r = q := by
      rw [hq, List.mem_singleton]
    rw [← hmem, List.mem_filter, r.hits_eq_headHits]
    exact ⟨fun h => ⟨r.mem_all, h⟩, And.right⟩

theorem decode_bus_of_rowOf {t : BusWord} {r : BusRow} (hlive : fieldS t ≠ 0b10)
    (hrow : rowOf t = some r) : decode (.bus t) = .ok (r.instr t) := by
  rw [decode, decodeBus, if_neg hlive, hrow]

theorem decode_bus_reserved {t : BusWord} (h : fieldS t = 0b10) :
    decode (.bus t) = .error .reservedScheme := by
  rw [decode, decodeBus, if_pos h]

/-- A word of a live scheme decodes to what the matching row makes of it. -/
theorem decode_bus_of_hits {t : BusWord} {r : BusRow} (hlive : fieldS t ≠ 0b10) (hr : r.hits t = true) :
    decode (.bus t) = .ok (r.instr t) := by
  obtain ⟨q, hq, hunique⟩ := exists_rowOf_unique hlive
  rw [(hunique r).1 hr]
  exact decode_bus_of_rowOf hlive hq

/-- A decoded transaction word is of a live scheme, and a row that matches it made the operation. -/
theorem hits_of_decode_bus {t : BusWord} {i : Instr} (h : decode (.bus t) = .ok i) :
    fieldS t ≠ 0b10 ∧ ∃ r : BusRow, r.hits t = true ∧ i = r.instr t := by
  by_cases hlive : fieldS t = 0b10
  · rw [decode_bus_reserved hlive] at h
    cases h
  · obtain ⟨q, hq, hunique⟩ := exists_rowOf_unique hlive
    rw [decode_bus_of_rowOf hlive hq] at h
    cases h
    exact ⟨hlive, q, (hunique q).2 rfl, rfl⟩

/-- Settles O3: the row is the one the decoder finds, the rows that match are that one alone, and the reserved
tag is looked at before any row. -/
theorem exactlyOneRowMatches : Obligations.ExactlyOneRowMatches := by
  intro t
  refine ⟨fun hlive => ?_, decode_bus_reserved⟩
  obtain ⟨q, hq, hunique⟩ := exists_rowOf_unique hlive
  have hits : ∀ r : BusRow, t &&& r.pattern.2 = r.pattern.1 ↔ r = q := fun r => by
    rw [← hunique, BusRow.hits, beq_iff_eq]
  exact ⟨q, (hits q).2 rfl, fun r => (hits r).1, decode_bus_of_rowOf hlive hq⟩

/-! ### Decoding an encoded operation -/

namespace Laws.EncodingRow

/-- The family `EncodingRow`, for every operation. -/
theorem statement (i : Instr) : Statement i := by
  cases i with
  | nRdRom a => exact nRdRom a
  | nWrRom a v => exact nWrRom a v
  | nRdX a => exact nRdX a
  | nWrX a v => exact nWrX a v
  | s1WrRamen a v => exact s1WrRamen a v
  | s1WrRomlo a v => exact s1WrRomlo a v
  | s1WrUpper a v => exact s1WrUpper a v
  | s1WrMode a v => exact s1WrMode a v
  | s1RdRom0 a => exact s1RdRom0 a
  | s1RdRomx a => exact s1RdRomx a
  | s1RdXram a => exact s1RdXram a
  | s1WrXram a v => exact s1WrXram a v
  | s3WrEn a v => exact s3WrEn a v
  | s3WrRomb a v => exact s3WrRomb a v
  | s3WrSel a v => exact s3WrSel a v
  | s3WrLatch a v => exact s3WrLatch a v
  | s3RdRom0 a => exact s3RdRom0 a
  | s3RdRomx a => exact s3RdRomx a
  | s3RdX a => exact s3RdX a
  | s3WrX a v => exact s3WrX a v
  | fwd8 sch w a v => exact fwd8 sch w a v
  | fwdC sch w a v => exact fwdC sch w a v
  | poll => exact poll
  | cpu => exact cpu
  | disp => exact disp
  | tmr => exact tmr
  | yield => exact yield
  | stopped => exact stopped

end Laws.EncodingRow

/-- A well-formed forwarded transaction is of a live scheme, and its data operand is its data field. -/
theorem forwardOk_iff {sch : Scheme} {w : Dir} {v : Byte} :
    forwardOk sch w v = true ↔ sch ≠ .unsupported ∧ forwardData w v = v := by
  cases w <;> simp [forwardOk, forwardData, eq_comm (a := v)]

/-- The word of a well-formed operation is of a live scheme. -/
theorem fieldS_encode {i : Instr} {t : BusWord} (hwf : i.wf = true) (ht : encode i = .bus t) :
    fieldS t ≠ 0b10 := by
  cases i <;> cases ht
  case fwd8 | fwdC =>
    obtain ⟨-, hok⟩ := Bool.and_eq_true_iff.1 hwf
    rw [fieldS_transaction, ne_eq, Scheme.tag_eq_reserved]
    exact (forwardOk_iff.1 hok).1
  all_goals rw [fieldS_transaction]; decide

/-- The own row of a well-formed operation reads its operands back from its word. -/
theorem instr_encode {i : Instr} {t : BusWord} {r : BusRow} (hwf : i.wf = true)
    (ht : encode i = .bus t) (hr : Laws.EncodingRow.row i = some r) : r.instr t = i := by
  cases i <;> cases ht <;> cases hr
  case fwd8 | fwdC =>
    obtain ⟨-, hok⟩ := Bool.and_eq_true_iff.1 hwf
    simp [BusRow.instr, (forwardOk_iff.1 hok).2]
  all_goals simp [BusRow.instr]

/-- Settles O1: the word of an operation is matched by its own row, no other row matches a word of a live
scheme, and the row reads the operands back; a phase's word is its code. -/
theorem decodeOfEncodeIsIdentity : Obligations.DecodeOfEncodeIsIdentity := by
  intro i hwf
  have hrow := Laws.EncodingRow.statement i hwf
  split at hrow
  · next t r ht hr =>
    have hlive := fieldS_encode hwf ht
    rw [ht, decode_bus_of_hits hlive hrow, instr_encode hwf ht hr]
  · next c hc _ => rw [hc]; exact hrow
  · exact hrow.elim
  · exact hrow.elim

/-! ### Encoding a decoded word -/

/-- A transaction word is its four fields. -/
theorem append_fields (t : BusWord) : fieldS t ++ fieldW t ++ fieldA t ++ fieldD t = t := by
  apply BitVec.eq_of_getLsbD_eq
  intro k hk
  simp only [fieldS, fieldW, fieldA, fieldD, BitVec.getLsbD_append, BitVec.getLsbD_extractLsb]
  split
  · simp; omega
  split
  · simp [show 8 + (k - 8) = k by omega]; omega
  split
  · simp [show k = 24 by omega]
  · simp [show 25 + (k - 8 - 16 - 1) = k by omega]; omega

theorem ext_fields {t u : BusWord} (hS : fieldS t = fieldS u) (hW : fieldW t = fieldW u)
    (hA : fieldA t = fieldA u) (hD : fieldD t = fieldD u) : t = u := by
  rw [← append_fields t, ← append_fields u, hS, hW, hA, hD]

/-- `T` with the data field cleared where it is a read: what R70 makes of the word of a read. -/
def clearReadData (t : BusWord) : BusWord := if t.getLsbD 24 then t else t &&& 0x7FFFF00

theorem getLsbD_24_eq (t : BusWord) : t.getLsbD 24 = (fieldW t).getLsbD 0 := by
  simp [fieldW]

/-- Packing the fields of a word gives it back, the data of a read cleared. -/
theorem transaction_fields {t : BusWord} {sch : Scheme} {w : Dir} (hS : fieldS t = sch.tag)
    (hW : fieldW t = w.bit) :
    transaction sch w (fieldA t) (forwardData w (fieldD t)) = clearReadData t := by
  have hS' : fieldS (t &&& 0x7FFFF00) = fieldS t := by
    simp only [fieldS, BitVec.extractLsb_and]; exact BitVec.and_allOnes
  have hW' : fieldW (t &&& 0x7FFFF00) = fieldW t := by
    simp only [fieldW, BitVec.extractLsb_and]; exact BitVec.and_allOnes
  have hA' : fieldA (t &&& 0x7FFFF00) = fieldA t := by
    simp only [fieldA, BitVec.extractLsb_and]; exact BitVec.and_allOnes
  have hD' : fieldD (t &&& 0x7FFFF00) = 0 := by
    simp only [fieldD, BitVec.extractLsb_and]; exact BitVec.and_zero
  unfold clearReadData
  rw [getLsbD_24_eq, hW]
  cases w with
  | read =>
    rw [if_neg (by decide)]
    exact ext_fields (by rw [fieldS_transaction, hS', hS]) (by rw [fieldW_transaction, hW', hW])
      (by rw [fieldA_transaction, hA']) (by rw [fieldD_transaction, hD']; rfl)
  | write =>
    rw [if_pos (by decide)]
    exact ext_fields (by rw [fieldS_transaction, hS]) (by rw [fieldW_transaction, hW])
      (fieldA_transaction ..) (fieldD_transaction ..)

/-- The scheme and the direction a row gives the operation it makes of `T`. -/
def BusRow.packed (t : BusWord) : BusRow → Scheme × Dir
  | .nRdRom | .nRdX => (.none, .read)
  | .nWrRom | .nWrX => (.none, .write)
  | .s1WrRamen | .s1WrRomlo | .s1WrUpper | .s1WrMode | .s1WrXram => (.scheme1, .write)
  | .s1RdRom0 | .s1RdRomx | .s1RdXram => (.scheme1, .read)
  | .s3WrEn | .s3WrRomb | .s3WrSel | .s3WrLatch | .s3WrX => (.scheme3, .write)
  | .s3RdRom0 | .s3RdRomx | .s3RdX => (.scheme3, .read)
  | .fwd8 | .fwdC => (Scheme.ofTag (fieldS t), Dir.ofBit (fieldW t))

theorem encode_instr (r : BusRow) (t : BusWord) :
    encode (r.instr t) = .bus (transaction (r.packed t).1 (r.packed t).2 (fieldA t)
      (forwardData (r.packed t).2 (fieldD t))) := by
  cases r <;> rfl

theorem fieldW_eq_headBits (t : BusWord) : fieldW t = (headBits t).extractLsb 3 3 := by
  apply BitVec.eq_of_getLsbD_eq
  intro k hk
  obtain rfl : k = 0 := by omega
  simp [fieldW, headBits]

theorem Scheme.tag_ofTag : ∀ x : BitVec 2, (Scheme.ofTag x).tag = x := by decide

theorem Dir.bit_ofBit : ∀ x : BitVec 1, (Dir.ofBit x).bit = x := by decide

/-- A row matches words of its own scheme and direction only. -/
theorem fields_of_hits {r : BusRow} {t : BusWord} (h : r.hits t = true) :
    fieldS t = (r.packed t).1.tag ∧ fieldW t = (r.packed t).2.bit := by
  rw [BusRow.hits_eq_headHits] at h
  cases r
  case fwd8 | fwdC => exact ⟨(Scheme.tag_ofTag _).symm, (Dir.bit_ofBit _).symm⟩
  all_goals
    rw [fieldS_eq_headBits, fieldW_eq_headBits]
    generalize headBits t = x at h
    dsimp only [BusRow.packed]
    revert x
    decide

/-! ### The range of a row -/

/-- The first and the last address of a row's bus range. -/
def BusRow.range : BusRow → Nat × Nat
  | .nRdRom | .nWrRom => (0x0000, 0x7FFF)
  | .nRdX | .nWrX | .s1RdXram | .s1WrXram | .s3RdX | .s3WrX => (0xA000, 0xBFFF)
  | .s1WrRamen | .s3WrEn => (0x0000, 0x1FFF)
  | .s1WrRomlo | .s3WrRomb => (0x2000, 0x3FFF)
  | .s1WrUpper | .s3WrSel => (0x4000, 0x5FFF)
  | .s1WrMode | .s3WrLatch => (0x6000, 0x7FFF)
  | .s1RdRom0 | .s3RdRom0 => (0x0000, 0x3FFF)
  | .s1RdRomx | .s3RdRomx => (0x4000, 0x7FFF)
  | .fwd8 => (0x8000, 0x9FFF)
  | .fwdC => (0xC000, 0xFFFF)

theorem rangeSelect_eq_headBits (t : BusWord) :
    (fieldA t).toNat / 8192 = ((headBits t).extractLsb 2 0).toNat := by
  rw [← toNat_rangeSelect]
  congr 1
  apply BitVec.eq_of_getLsbD_eq
  intro k hk
  rcases (by omega : k = 0 ∨ k = 1 ∨ k = 2) with rfl | rfl | rfl <;> simp [fieldA, headBits]

/-- A row matches words of its own range only. -/
theorem inRange_of_hits {r : BusRow} {t : BusWord} (h : r.hits t = true) :
    inRange (fieldA t) r.range.1 r.range.2 = true := by
  rw [BusRow.hits_eq_headHits] at h
  have hblock : r.range.1 / 8192 ≤ (fieldA t).toNat / 8192 ∧
      (fieldA t).toNat / 8192 ≤ r.range.2 / 8192 := by
    rw [rangeSelect_eq_headBits]
    generalize headBits t = x at h
    revert x
    cases r <;> decide
  have hends : r.range.1 % 8192 = 0 ∧ r.range.2 % 8192 = 8191 := by cases r <;> decide
  simp only [inRange, Bool.and_eq_true, decide_eq_true_eq]
  omega

/-- The operation of a matching row is well formed. -/
theorem wf_instr_of_hits {r : BusRow} {t : BusWord} (hlive : fieldS t ≠ 0b10) (h : r.hits t = true) :
    (r.instr t).wf = true := by
  have hrange := inRange_of_hits h
  cases r
  case fwd8 | fwdC =>
    refine Bool.and_eq_true_iff.2 ⟨hrange, forwardOk_iff.2 ⟨?_, ?_⟩⟩
    · rwa [ne_eq, ← Scheme.tag_eq_reserved, Scheme.tag_ofTag]
    · cases Dir.ofBit (fieldW t) <;> rfl
  all_goals exact hrange

/-- Settles O2: the word is matched by the row that made the operation, so its address lies in the row's range
and its scheme and direction are the row's; packing its own fields again clears the data of a read. -/
theorem encodeOfDecodeKeepsWord : Obligations.EncodeOfDecodeKeepsWord := by
  intro t i hdecode
  obtain ⟨hlive, r, hr, rfl⟩ := hits_of_decode_bus hdecode
  obtain ⟨hS, hW⟩ := fields_of_hits hr
  exact ⟨wf_instr_of_hits hlive hr, by rw [encode_instr, transaction_fields hS hW, clearReadData]⟩

/-- Settles O4: the words and the codes are literals, and the decoder is run on each. -/
theorem specWordsDecode : Obligations.SpecWordsDecode := by
  unfold Obligations.SpecWordsDecode
  decide

end Sys2Proof
end

section
/-! PROOFS. The invariant (spec/10_state.md section 9) is kept by every operation and every step, and holds
after session start. -/

namespace Sys2Proof.Machine

/-! ### States that differ in inputs and outputs only -/

theorem State.sameBlock_refl (s : State) : s.sameBlock s := ⟨rfl, rfl, rfl, rfl, rfl, rfl⟩

theorem State.sameBlock_trans {s t u : State} (hst : s.sameBlock t) (htu : t.sameBlock u) :
    s.sameBlock u := by
  obtain ⟨h1, h2, h3, h4, h5, h6⟩ := hst
  obtain ⟨k1, k2, k3, k4, k5, k6⟩ := htu
  exact ⟨k1.trans h1, k2.trans h2, k3.trans h3, k4.trans h4, k5.trans h5, k6.trans h6⟩

theorem State.sameBlock_answer (s : State) (o : BusOutcome) : s.sameBlock (s.answer o) :=
  ⟨rfl, rfl, rfl, rfl, rfl, rfl⟩

theorem State.sameBlock_silent (s : State) : s.sameBlock s.silent := ⟨rfl, rfl, rfl, rfl, rfl, rfl⟩

theorem State.sameBlock_forward (w : Dir) (s : State) : s.sameBlock (forward w s) := by
  simp [State.sameBlock]

theorem State.sameBlock_consume (s : State) : s.sameBlock (consume s) := by
  simp [State.sameBlock]

theorem State.sameBlock_inputs (s : State) (evs : List CoreEvent) (exits : List Bool) :
    s.sameBlock { s with events := evs, exitLevels := exits } := ⟨rfl, rfl, rfl, rfl, rfl, rfl⟩

/-- The invariant speaks of the block alone. -/
theorem State.Inv.of_sameBlock {s t : State} (hs : s.Inv) (hst : s.sameBlock t) : t.Inv := by
  obtain ⟨hsession, hbank, hram, hphase, hcounter, hfatal⟩ := hst
  exact
    { mainCycles_pos := by rw [hsession]; exact hs.mainCycles_pos
      rtcTicks_pos := by rw [hsession]; exact hs.rtcTicks_pos
      bank_legal := by rw [hsession, hbank]; exact hs.bank_legal
      counter_legal := by rw [hsession, hphase, hcounter]; exact hs.counter_legal
      ram_wf := by rw [hram]; exact hs.ram_wf
      ram_fits := by rw [hsession, hram]; exact hs.ram_fits
      fatal_stops := by rw [hfatal, hphase]; exact hs.fatal_stops
      unsupported_fatal := by rw [State.scheme, hbank, hfatal]; exact hs.unsupported_fatal }

/-! ### Transactions keep the invariant -/

theorem counterLegal.le {n c : Nat} {p : Phase} (h : counterLegal n p c) : c ≤ n := by
  cases p <;> simp only [counterLegal] at h <;> omega

theorem State.Inv.fatalEntry {s : State} (hs : s.Inv) (e : ErrorKind) (a : Addr) (v : Byte) :
    (fatalEntry e a v s).Inv :=
  { hs with
    counter_legal := hs.counter_legal.le
    fatal_stops := fun _ => rfl
    unsupported_fatal := fun _ => by simp }

theorem State.Inv.storeRam {s : State} (hs : s.Inv) {off : Nat} (hoff : off < s.session.ramSize)
    (v : Byte) : (s.storeRam off v).Inv :=
  { hs with
    ram_wf := Memory.write_wf hs.ram_wf off v
    ram_fits := Memory.write_fits hs.ram_fits hoff v }

/-- A legal register group of a supported scheme may replace the old one. -/
theorem State.Inv.setBank {s : State} (hs : s.Inv) {b : BankController}
    (hlegal : b.legal s.session.rtcTicksPerSecond) (hsupported : b.scheme ≠ .unsupported) :
    (s.setBank b).Inv :=
  { hs with
    bank_legal := hlegal
    unsupported_fatal := fun h => absurd h hsupported }

theorem State.Inv.answer {s : State} (hs : s.Inv) (o : BusOutcome) : (s.answer o).Inv :=
  hs.of_sameBlock (s.sameBlock_answer o)

theorem exec_bus_inv {i : Instr} {s t : State} (hbus : i.isBus = true) (hs : s.Inv)
    (h : exec i s = .next t) : t.Inv := by
  rcases exec_bus_cases hbus h with ⟨-, rfl⟩ | ⟨-, h⟩
  · exact hs.of_sameBlock s.sameBlock_silent
  rcases h with ⟨o, -, rfl⟩ | ⟨w, rfl⟩ | ⟨e, a, v, -, rfl⟩ | ⟨off, v, hoff, rfl⟩ |
    ⟨r, r', hr, hlo, rfl⟩ | ⟨r, r', hr, hsub, hbank, h⟩
  · exact hs.answer o
  · exact hs.of_sameBlock (s.sameBlock_forward w)
  · exact hs.fatalEntry e a v
  · exact (hs.storeRam hoff v).answer _
  · have hlegal := hs.bank_legal
    rw [hr] at hlegal
    exact (hs.setBank (b := .scheme1 r') (hlo hlegal) (by simp [BankController.scheme])).answer _
  · have hlegal := hs.bank_legal
    rw [hr] at hlegal
    have hs' := hs.setBank (b := .scheme3 r') ⟨hbank hlegal.1, hsub ▸ hlegal.2⟩
      (by simp [BankController.scheme])
    rcases h with rfl | ⟨a, v, rfl⟩
    · exact hs'.answer _
    · exact hs'.of_sameBlock ⟨rfl, rfl, rfl, rfl, rfl, rfl⟩

/-! ### Phases keep the invariant -/

theorem State.sequence_inv {s : State} (hs : s.Inv) (hsafe : s.fatal = none) (c : Call) {p : Phase}
    (hcounter : counterLegal s.session.mainCycles p s.cycleCounter) : (s.sequence c p).Inv :=
  { hs with
    counter_legal := hcounter
    fatal_stops := fun h => absurd hsafe h }

/-- The prescaler stays below its ratio (R33 (e)). -/
theorem rtcTick_legal {n : Nat} {r : Scheme3Regs} (hn : 1 ≤ n)
    (h : (BankController.scheme3 r).legal n) : (BankController.scheme3 (rtcTick n r)).legal n := by
  obtain ⟨hbank, hsub⟩ := h
  unfold rtcTick
  split
  · exact ⟨hbank, hsub⟩
  · split
    · exact ⟨hbank, hn⟩
    · exact ⟨hbank, by show r.rtcSub + 1 < n; omega⟩

theorem State.rtcTick_inv {s : State} (hs : s.Inv) : s.rtcTick.Inv := by
  unfold State.rtcTick
  split
  · next r hr =>
    have hlegal := hs.bank_legal
    rw [hr] at hlegal
    exact hs.setBank (rtcTick_legal hs.rtcTicks_pos hlegal) (by simp [BankController.scheme])
  all_goals exact hs

theorem State.tickEnd_inv {s : State} (hs : s.Inv) (hsafe : s.fatal = none)
    (hcounter : s.cycleCounter < s.session.mainCycles) : s.tickEnd.Inv :=
  { State.rtcTick_inv hs with
    counter_legal := by
      show counterLegal s.rtcTick.session.mainCycles _ _
      rw [State.rtcTick_session]
      dsimp only [State.tickEnd, State.sequence]
      split
      · assumption
      · show s.cycleCounter + 1 < s.session.mainCycles
        omega
    fatal_stops := fun h => absurd (s.rtcTick_fatal.trans hsafe) h }

theorem State.frameStart_inv {s : State} (hs : s.Inv) (hsafe : s.fatal = none) : s.frameStart.Inv :=
  { hs with
    counter_legal := hs.mainCycles_pos
    fatal_stops := fun h => absurd hsafe h }

/-- A state of the invariant outside `STOPPED` has no fatal record. -/
theorem State.Inv.safe {s : State} (hs : s.Inv) (hphase : s.phase ≠ .stopped) : s.fatal = none := by
  by_contra h
  exact hphase (hs.fatal_stops h)

theorem exec_phase_inv {i : Instr} {s t : State} (hphase : i.isBus = false) (hs : s.Inv)
    (h : exec i s = .next t) : t.Inv := by
  have hc := hs.counter_legal
  rcases exec_phase_cases hphase h with ⟨-, hp, h⟩ | ⟨-, hp, rfl⟩ | ⟨-, hp, rfl⟩ | ⟨-, hp, h⟩ |
    ⟨-, hp, h⟩ | ⟨-, -, rfl⟩
  case inr.inr.inr.inr.inr => exact hs.of_sameBlock s.sameBlock_silent
  all_goals
    have hsafe := hs.safe (by rw [hp]; decide)
    rw [hp] at hc
  · obtain ⟨-, rfl⟩ := h.resolve_left fun h => h.1 hsafe
    exact State.frameStart_inv hs hsafe
  · exact State.sequence_inv hs hsafe _ (by rw [State.stageNext, hsafe]; exact hc)
  · exact State.sequence_inv hs hsafe _ (by rw [State.stageNext, hsafe]; exact hc)
  · obtain ⟨-, rfl⟩ := h.resolve_left fun h => h.1 hsafe
    exact State.tickEnd_inv hs hsafe hc
  · obtain ⟨-, rfl⟩ := h.resolve_left fun h => h.1 hsafe
    have hle : counterLegal s.session.mainCycles (if s.exitRequest then .stopped else .poll)
        s.cycleCounter := by split <;> exact Nat.le_of_eq hc
    exact (State.sequence_inv hs hsafe .frameDone hle).of_sameBlock ⟨rfl, rfl, rfl, rfl, rfl, rfl⟩

/-! ### Steps and runs -/

theorem exec_inv {i : Instr} {s t : State} (hs : s.Inv) (h : exec i s = .next t) : t.Inv := by
  cases hbus : i.isBus
  · exact exec_phase_inv hbus hs h
  · exact exec_bus_inv hbus hs h

/-- Settles O59: a step is one operation on the state whose event is consumed; each thing a transaction or a
phase can do keeps the invariant. -/
theorem stepKeepsInvariant : Obligations.StepKeepsInvariant := by
  intro s t hs hstep
  obtain ⟨i, -, hexec⟩ := step_next hstep
  exact exec_inv (hs.of_sameBlock s.sameBlock_consume) hexec

/-- What a step keeps holds along a run. -/
theorem runSteps_keeps {P : State → Prop} (hkeep : ∀ s t, P s → step s = .next t → P t) {n : Nat}
    {s t : State} (hs : P s) (h : runSteps n s = .next t) : P t := by
  induction n generalizing s with
  | zero => cases h; exact hs
  | succ n ih =>
    obtain ⟨u, hu, h⟩ := runSteps_succ_next h
    exact ih (hkeep s u hs hu) h

/-! ### The launch inputs -/

/-- A phase leaves the parameters, RAM and the fatal record, and the bank group but for the tick of the clock. -/
theorem exec_phase_frame {i : Instr} {s t : State} (hphase : i.isBus = false) (h : exec i s = .next t) :
    t.session = s.session ∧ t.ram = s.ram ∧ t.fatal = s.fatal ∧
      (t.bank = s.bank ∨ t.bank = s.rtcTick.bank) := by
  rcases exec_phase_cases hphase h with ⟨-, -, ⟨-, rfl⟩ | ⟨-, rfl⟩⟩ | ⟨-, -, rfl⟩ | ⟨-, -, rfl⟩ |
    ⟨-, -, ⟨-, rfl⟩ | ⟨-, rfl⟩⟩ | ⟨-, -, ⟨-, rfl⟩ | ⟨-, rfl⟩⟩ | ⟨-, -, rfl⟩
  case inr.inr.inr.inl.inr => exact ⟨s.rtcTick_session, s.rtcTick_ram, s.rtcTick_fatal, .inr rfl⟩
  all_goals exact ⟨rfl, rfl, rfl, .inl rfl⟩

/-- No operation changes a parameter or the scheme. -/
theorem exec_launch_inputs {i : Instr} {s t : State} (h : exec i s = .next t) :
    t.session = s.session ∧ t.scheme = s.scheme := by
  cases hbus : i.isBus
  · obtain ⟨hsession, -, -, hbank | hbank⟩ := exec_phase_frame hbus h
    · exact ⟨hsession, congrArg BankController.scheme hbank⟩
    · exact ⟨hsession, (congrArg BankController.scheme hbank).trans s.rtcTick_scheme⟩
  · rcases exec_bus_cases hbus h with ⟨-, rfl⟩ | ⟨-, h⟩
    · exact ⟨rfl, rfl⟩
    rcases h with ⟨o, -, rfl⟩ | ⟨w, rfl⟩ | ⟨e, a, v, -, rfl⟩ | ⟨off, v, -, rfl⟩ |
      ⟨r, r', hr, -, rfl⟩ | ⟨r, r', hr, -, -, rfl | ⟨a, v, rfl⟩⟩
    · exact ⟨rfl, rfl⟩
    · simp
    · exact ⟨rfl, rfl⟩
    · exact ⟨rfl, rfl⟩
    all_goals exact ⟨rfl, by simp [State.scheme, hr, BankController.scheme]⟩

/-- Settles O55: a step is one operation, and none of the things an operation can do changes a launch input. -/
theorem launchInputsNeverChange : Obligations.LaunchInputsNeverChange := by
  intro s t hstep
  obtain ⟨i, -, hexec⟩ := step_next hstep
  obtain ⟨hsession, hscheme⟩ := exec_launch_inputs hexec
  exact ⟨hsession.trans (consume_session s), hscheme.trans (consume_scheme s)⟩

/-! ### Session start -/

theorem sessionStart_eq_some {l : Launch} {s : State} :
    sessionStart l = some s ↔ l.valid ∧ s = startState l := by
  unfold sessionStart
  split
  · next h => exact ⟨fun hs => ⟨h, (Option.some.inj hs).symm⟩, fun hs => congrArg some hs.2.symm⟩
  · next h => exact ⟨fun hs => (nomatch hs), fun hs => absurd hs.1 h⟩

/-- The registers session start creates are legal (R32, R33). -/
theorem BankController.reset_legal {n : Nat} (hn : 1 ≤ n) (sch : Scheme) :
    (BankController.reset sch).legal n := by
  cases sch with
  | none | unsupported => trivial
  | scheme1 => exact (by decide : Scheme1Regs.reset.romLo ≠ 0)
  | scheme3 => exact ⟨by decide, hn⟩

theorem BankController.scheme_reset (sch : Scheme) : (BankController.reset sch).scheme = sch := by
  cases sch <;> rfl

theorem startState_scheme (l : Launch) : (startState l).scheme = l.scheme :=
  BankController.scheme_reset l.scheme

theorem startState_inv {l : Launch} (hl : l.valid) : (startState l).Inv := by
  obtain ⟨-, -, hmain, hrtc, -, -, hwf, hfits⟩ := hl
  refine ⟨hmain, hrtc, BankController.reset_legal hrtc l.scheme, ?_, hwf, hfits, ?_, ?_⟩
  · show counterLegal l.session.mainCycles (startPhase l.scheme) 0
    cases l.scheme <;> exact Nat.zero_le _
  · show startError l.scheme ≠ none → startPhase l.scheme = .stopped
    cases l.scheme <;> simp [startError, startPhase]
  · rw [startState_scheme]
    show l.scheme = .unsupported → startError l.scheme ≠ none
    intro h
    simp [h, startError]

/-- `Launch.plain` is a valid launch, whatever `MAIN_CYCLES` is. -/
theorem Launch.plain_valid : Launch.plain.valid :=
  ⟨by decide, by decide, Nat.le_add_left 1 _, by decide, by decide, by decide, by decide, by decide⟩

/-- Settles O57: the launch is valid, and `State.reset` is the state session start builds of it. -/
theorem resetIsASessionStart : Obligations.ResetIsASessionStart :=
  sessionStart_eq_some.2 ⟨Launch.plain_valid, reset_eq_startState⟩

/-- Settles O58: the invariant speaks of the block alone, and the state session start builds satisfies it. -/
theorem resetIsLegal : Obligations.ResetIsLegal := by
  constructor
  · intro l s evs exits hstart
    obtain ⟨hl, rfl⟩ := sessionStart_eq_some.1 hstart
    exact (startState_inv hl).of_sameBlock (State.sameBlock_inputs _ evs exits)
  · rw [reset_eq_startState]
    exact startState_inv Launch.plain_valid

/-- Settles O56: the fields of `startState`, by the scheme of the launch. -/
theorem sessionStartBuildsState : Obligations.SessionStartBuildsState := by
  intro l
  refine ⟨fun hl => ⟨startState l, sessionStart_eq_some.2 ⟨hl, rfl⟩, rfl, rfl, rfl, rfl, rfl, rfl, rfl,
    ?_, ?_, ?_, ?_⟩, fun hl => if_neg hl⟩
  · intro h
    simp [startState, h, BankController.reset, startPhase, startError]
  · intro h
    refine ⟨by simp [startState, h, startPhase], by simp [startState, h, startError],
      Scheme1Regs.reset, by simp [startState, h, BankController.reset], by decide⟩
  · intro h
    refine ⟨by simp [startState, h, startPhase], by simp [startState, h, startError],
      Scheme3Regs.reset, by simp [startState, h, BankController.reset], by decide⟩
  · intro h
    simp [startState, h, BankController.reset, startPhase, startError]

/-- What the bounds of R33 say of the registers of a legal group, as numbers. -/
theorem Scheme1Regs.banks_of_legal {n : Nat} {r : Scheme1Regs} (h : (BankController.scheme1 r).legal n) :
    1 ≤ r.romLo.toNat ∧ r.romLo.toNat ≤ 31 ∧ 1 ≤ r.romBank.toNat ∧ r.romBank.toNat ≤ 127 ∧
      r.ramBank.toNat ≤ 3 := by
  have hlo : r.romLo.toNat ≠ 0 := fun h0 => h (BitVec.eq_of_toNat_eq h0)
  rw [r.romBank_toNat]
  omega

/-- Settles O60: the invariant holds at session start and every step keeps it, and no step changes a launch
input; the bounds are what the invariant says at the end of the run. -/
theorem reachableStatesAreLegal : Obligations.ReachableStatesAreLegal := by
  intro l s t evs exits n hstart hrun
  obtain ⟨hl, rfl⟩ := sessionStart_eq_some.1 hstart
  have hinv : t.Inv := runSteps_keeps stepKeepsInvariant (resetIsLegal.1 l _ evs exits hstart) hrun
  obtain ⟨hsession, hscheme⟩ : t.session = l.session ∧ t.scheme = l.scheme := by
    refine runSteps_keeps (P := fun u => u.session = l.session ∧ u.scheme = l.scheme)
      (fun u v hu huv => ?_) ⟨rfl, ?_⟩ hrun
    · obtain ⟨h1, h2⟩ := launchInputsNeverChange u v huv
      exact ⟨h1.trans hu.1, h2.trans hu.2⟩
    · exact startState_scheme l
  have hlegal := hinv.bank_legal
  refine ⟨fun r hr => ?_, fun r hr => ?_, ?_, ?_, hsession, hscheme⟩
  · rw [hr] at hlegal
    exact Scheme1Regs.banks_of_legal hlegal
  · rw [hr, hsession] at hlegal
    have hbank : r.romBank.toNat ≠ 0 := fun h0 => hlegal.1 (BitVec.eq_of_toNat_eq h0)
    exact ⟨by omega, by omega, hlegal.2⟩
  · rw [← hsession]
    exact hinv.counter_legal.le
  · rw [← hsession]
    exact hinv.ram_fits

end Sys2Proof.Machine
end

section
/-! PROOFS. The rows of the bus, one rule per row: what a row does once the gates for a fatal record and for
the scheme are passed (spec/40_scheme_none.md, spec/41_scheme1.md, spec/42_scheme3.md). -/

namespace Sys2Proof.Machine

/-! ### The register group of a scheme -/

theorem State.scheme_eq_none {s : State} : s.scheme = .none ↔ s.bank = .noController := by
  unfold State.scheme
  cases s.bank <;> simp [BankController.scheme]

theorem State.scheme_eq_scheme1 {s : State} : s.scheme = .scheme1 ↔ ∃ r, s.bank = .scheme1 r := by
  unfold State.scheme
  cases s.bank <;> simp [BankController.scheme]

theorem State.scheme_eq_scheme3 {s : State} : s.scheme = .scheme3 ↔ ∃ r, s.bank = .scheme3 r := by
  unfold State.scheme
  cases s.bank <;> simp [BankController.scheme]

/-! ### Image accesses -/

section Images

variable {s : State} {off : Nat}

theorem readRom_inside (h : off < s.session.romLen) (a : Addr) :
    readRom off a s = .next (s.answered (.data (s.session.rom.read off))) := if_pos h

theorem readRom_beyond (h : s.session.romLen ≤ off) (a : Addr) :
    readRom off a s = .next (s.stoppedBy .offsetOutOfRange a 0) := if_neg (Nat.not_lt.2 h)

theorem readRam_inside (h : off < s.session.ramSize) (a : Addr) :
    readRam off a s = .next (s.answered (.data (s.ram.read off))) := if_pos h

theorem readRam_beyond (h : s.session.ramSize ≤ off) (a : Addr) :
    readRam off a s = .next (s.stoppedBy .offsetOutOfRange a 0) := if_neg (Nat.not_lt.2 h)

theorem writeRam_inside (h : off < s.session.ramSize) (a : Addr) (v : Byte) :
    writeRam off a v s = .next { s with ram := s.ram.write off v, ports := { outcome := some .ack } } :=
  if_pos h

theorem writeRam_beyond (h : s.session.ramSize ≤ off) (a : Addr) (v : Byte) :
    writeRam off a v s = .next (s.stoppedBy .offsetOutOfRange a v) := if_neg (Nat.not_lt.2 h)

/-- A write inside the image replaces one byte, and the image stays canonical. -/
theorem writeRam_replaces_byte (hwf : s.ram.wf) (h : off < s.session.ramSize) (a : Addr) (v : Byte) :
    ∃ m : Memory, writeRam off a v s = .next { s with ram := m, ports := { outcome := some .ack } } ∧
      m.wf ∧ ∀ x, m.read x = if x = off then v else s.ram.read x := by
  refine ⟨_, writeRam_inside h a v, Memory.write_wf hwf off v, fun x => ?_⟩
  simp only [Memory.read_write hwf off v x, eq_comm (a := off)]

end Images

/-! ### The forwarded transactions -/

theorem exec_fwd8_of_safe {s : State} (hfatal : s.fatal = none) (sch : Scheme) (w : Dir) (a : Addr)
    (v : Byte) : exec (.fwd8 sch w a v) s = .next (forward w s) := unlessFatal_of_none hfatal _

theorem exec_fwdC_of_safe {s : State} (hfatal : s.fatal = none) (sch : Scheme) (w : Dir) (a : Addr)
    (v : Byte) : exec (.fwdC sch w a v) s = .next (forward w s) := unlessFatal_of_none hfatal _

/-- Settles O10: both rows are `forward`, which answers a read with the next free byte and a write with
none. -/
theorem forwardedTransactions : Obligations.ForwardedTransactions := by
  intro s sch a v hfatal
  constructor <;> intro i hi <;> rcases List.mem_pair.1 hi with rfl | rfl
  · exact exec_fwd8_of_safe hfatal sch .read a v
  · exact exec_fwdC_of_safe hfatal sch .read a v
  · exact exec_fwd8_of_safe hfatal sch .write a v
  · exact exec_fwdC_of_safe hfatal sch .write a v

/-! ### Scheme None -/

section SchemeNone

variable {s : State} (hfatal : s.fatal = none) (hbank : s.bank = .noController)

include hfatal hbank

theorem gatedNone (k : Result) : unlessFatal s (onNone s k) = k := by
  rw [unlessFatal_of_none hfatal, onNone_of_bank hbank]

theorem exec_nRdRom_of_bank (a : Addr) : exec (.nRdRom a) s = readRom a.toNat a s :=
  gatedNone hfatal hbank _

theorem exec_nRdX_of_bank (a : Addr) :
    exec (.nRdX a) s = .next (s.stoppedBy .unmappedAddress a 0) := gatedNone hfatal hbank _

theorem exec_nWrX_of_bank (a : Addr) (v : Byte) :
    exec (.nWrX a v) s = .next (s.stoppedBy .unmappedAddress a v) := gatedNone hfatal hbank _

end SchemeNone

/-- Settles O7: the row is a ROM read at the literal address, with the bounds check of R62. -/
theorem noneRomRead : Obligations.NoneRomRead := by
  intro s a hfatal hbank
  rw [exec_nRdRom_of_bank hfatal hbank]
  exact ⟨fun h => readRom_inside h a, fun h => readRom_beyond h a⟩

/-- Settles O9: both rows take the fatal error. -/
theorem noneExternalWindowUnmapped : Obligations.NoneExternalWindowUnmapped :=
  fun _ a v hfatal hbank => ⟨exec_nRdX_of_bank hfatal hbank a, exec_nWrX_of_bank hfatal hbank a v⟩

/-! ### Scheme1 -/

section SchemeOne

variable {s : State} {r : Scheme1Regs} (hfatal : s.fatal = none) (hbank : s.bank = .scheme1 r)

include hfatal hbank

theorem gatedScheme1 (k : Scheme1Regs → Result) : unlessFatal s (onScheme1 s k) = k r := by
  rw [unlessFatal_of_none hfatal, onScheme1_of_bank hbank]

theorem exec_s1WrRamen_of_bank (a : Addr) (v : Byte) :
    exec (.s1WrRamen a v) s = .next { s with
      bank := .scheme1 { r with ramEnable := enableOf v }, ports := { outcome := some .ack } } :=
  writeScheme1_of_bank hfatal hbank _

theorem exec_s1WrRomlo_of_bank (a : Addr) (v : Byte) :
    exec (.s1WrRomlo a v) s = .next { s with
      bank := .scheme1 { r with romLo := lowBankOf v }, ports := { outcome := some .ack } } :=
  writeScheme1_of_bank hfatal hbank _

theorem exec_s1WrUpper_of_bank (a : Addr) (v : Byte) :
    exec (.s1WrUpper a v) s = .next { s with
      bank := .scheme1 (r.setUpper (upperOf v)), ports := { outcome := some .ack } } :=
  writeScheme1_of_bank hfatal hbank _

theorem exec_s1RdRom0_of_bank (a : Addr) : exec (.s1RdRom0 a) s = readRom (romOffset 0 a) a s :=
  gatedScheme1 hfatal hbank _

theorem exec_s1RdRomx_of_bank (a : Addr) :
    exec (.s1RdRomx a) s = readRom (romOffset r.effRomBank a) a s :=
  gatedScheme1 hfatal hbank _

theorem exec_s1RdXram_of_bank (a : Addr) :
    exec (.s1RdXram a) s =
      if r.windowOpen then readRam (ramOffset r.ramBank.toNat a) a s else readOpenBus s :=
  gatedScheme1 hfatal hbank _

theorem exec_s1WrXram_of_bank (a : Addr) (v : Byte) :
    exec (.s1WrXram a v) s =
      if r.windowOpen then writeRam (ramOffset r.ramBank.toNat a) a v s else ignoreWrite s :=
  gatedScheme1 hfatal hbank _

end SchemeOne

theorem Scheme1Regs.windowOpen_iff (r : Scheme1Regs) :
    r.windowOpen = true ↔ r.ramEnable = true ∧ r.mode = .ram := by
  simp [Scheme1Regs.windowOpen]

/-- Settles O13: the row is a control write of the low field. -/
theorem s1RomLowWrite : Obligations.S1RomLowWrite := by
  intro s r a v hfatal hbank
  rw [exec_s1WrRomlo_of_bank hfatal hbank, lowBankOf_eq]

/-- Settles O14: the row is a control write of the field that `setUpper` takes from `mode`. -/
theorem s1UpperWrite : Obligations.S1UpperWrite := by
  intro s r a v hfatal hbank
  rw [exec_s1WrUpper_of_bank hfatal hbank, upperOf_eq]
  constructor <;> intro hmode <;> simp only [Scheme1Regs.setUpper, hmode]

/-- Settles O17: the row is a ROM read in the effective bank. -/
theorem s1SwitchableRead : Obligations.S1SwitchableRead := by
  intro s r a off hfatal hbank hoff
  rw [exec_s1RdRomx_of_bank hfatal hbank, romOffset_eq, r.effRomBank_eq, ← hoff]
  exact ⟨fun h => readRom_inside h a, fun h => readRom_beyond h a⟩

/-- Settles O18: the gate comes first, then the bounds check of the RAM read. -/
theorem s1ExternalRead : Obligations.S1ExternalRead := by
  intro s r a off hfatal hbank hoff
  rw [exec_s1RdXram_of_bank hfatal hbank, ramOffset_eq, ← hoff]
  refine ⟨fun hclosed => ?_, fun henable hmode h => ?_, fun henable hmode h => ?_⟩
  · rw [if_neg (mt r.windowOpen_iff.1 hclosed)]; rfl
  · rw [if_pos (r.windowOpen_iff.2 ⟨henable, hmode⟩)]; exact readRam_inside h a
  · rw [if_pos (r.windowOpen_iff.2 ⟨henable, hmode⟩)]; exact readRam_beyond h a

/-- Settles O19: the gate comes first, then the bounds check of the RAM write, which replaces one byte. -/
theorem s1ExternalWrite : Obligations.S1ExternalWrite := by
  intro s r a v off hfatal hbank hwf hoff
  rw [exec_s1WrXram_of_bank hfatal hbank, ramOffset_eq, ← hoff]
  refine ⟨fun hclosed => ?_, fun henable hmode h => ?_, fun henable hmode h => ?_⟩
  · rw [if_neg (mt r.windowOpen_iff.1 hclosed)]; rfl
  · rw [if_pos (r.windowOpen_iff.2 ⟨henable, hmode⟩)]; exact writeRam_replaces_byte hwf h a v
  · rw [if_pos (r.windowOpen_iff.2 ⟨henable, hmode⟩)]; exact writeRam_beyond h a v

/-! ### Scheme3 -/

section SchemeThree

variable {s : State} {r : Scheme3Regs} (hfatal : s.fatal = none) (hbank : s.bank = .scheme3 r)

include hfatal hbank

theorem gatedScheme3 (k : Scheme3Regs → Result) : unlessFatal s (onScheme3 s k) = k r := by
  rw [unlessFatal_of_none hfatal, onScheme3_of_bank hbank]

theorem exec_s3WrEn_of_bank (a : Addr) (v : Byte) :
    exec (.s3WrEn a v) s = .next { s with
      bank := .scheme3 { r with enable := enableOf v }, ports := { outcome := some .ack } } :=
  writeScheme3_of_bank hfatal hbank _

theorem exec_s3WrRomb_of_bank (a : Addr) (v : Byte) :
    exec (.s3WrRomb a v) s = .next { s with
      bank := .scheme3 { r with romBank := bank7Of v }, ports := { outcome := some .ack } } :=
  writeScheme3_of_bank hfatal hbank _

theorem exec_s3WrLatch_of_bank (a : Addr) (v : Byte) :
    exec (.s3WrLatch a v) s = .next { s with
      bank := .scheme3 (r.latchWrite v), ports := { outcome := some .ack } } :=
  writeScheme3_of_bank hfatal hbank _

/-- A defined selection is a plain control write. -/
theorem exec_s3WrSel_of_defined (a : Addr) {v : Byte} (hv : selectOf v ≠ .undefined) :
    exec (.s3WrSel a v) s = .next { s with
      bank := .scheme3 { r with select := selectOf v }, ports := { outcome := some .ack } } :=
  (gatedScheme3 hfatal hbank _).trans (if_neg hv)

/-- The undefined selection is stored as such, and noted (R122, R178). -/
theorem exec_s3WrSel_of_undefined (a : Addr) {v : Byte} (hv : selectOf v = .undefined) :
    exec (.s3WrSel a v) s = .next { s with
      bank := .scheme3 { r with select := .undefined }
      ports := { outcome := some .ack, note := some ⟨.undefinedRegisterSelect, a, v, .scheme3⟩ } } := by
  rw [← hv]
  exact (gatedScheme3 hfatal hbank _).trans (if_pos hv)

theorem exec_s3RdRom0_of_bank (a : Addr) : exec (.s3RdRom0 a) s = readRom (romOffset 0 a) a s :=
  gatedScheme3 hfatal hbank _

theorem exec_s3RdRomx_of_bank (a : Addr) :
    exec (.s3RdRomx a) s = readRom (romOffset r.romBank.toNat a) a s :=
  gatedScheme3 hfatal hbank _

/-! The window of Scheme3, by the gate and the selection. -/

theorem exec_s3RdX_of_disabled (henable : r.enable = false) (a : Addr) :
    exec (.s3RdX a) s = .next (s.answered (.data s.session.openBus)) :=
  (gatedScheme3 hfatal hbank _).trans (by simp only [henable]; rfl)

theorem exec_s3RdX_of_undefined (henable : r.enable = true) (hselect : r.select = .undefined) (a : Addr) :
    exec (.s3RdX a) s = .next (s.answered (.data s.session.openBus)) :=
  (gatedScheme3 hfatal hbank _).trans (by simp only [henable, hselect]; rfl)

theorem exec_s3RdX_of_rtc (henable : r.enable = true) {x : RtcReg} (hselect : r.select = .rtc x) (a : Addr) :
    exec (.s3RdX a) s = .next (s.answered (.data (r.snap.get x))) :=
  (gatedScheme3 hfatal hbank _).trans (by simp only [henable, hselect]; rfl)

theorem exec_s3RdX_of_ramBank (henable : r.enable = true) {n : BitVec 2} (hselect : r.select = .ramBank n)
    (a : Addr) : exec (.s3RdX a) s = readRam (ramOffset n.toNat a) a s :=
  (gatedScheme3 hfatal hbank _).trans (by simp only [henable, hselect]; rfl)

theorem exec_s3WrX_of_disabled (henable : r.enable = false) (a : Addr) (v : Byte) :
    exec (.s3WrX a v) s = .next (s.answered .ack) :=
  (gatedScheme3 hfatal hbank _).trans (by simp only [henable]; rfl)

theorem exec_s3WrX_of_undefined (henable : r.enable = true) (hselect : r.select = .undefined) (a : Addr)
    (v : Byte) : exec (.s3WrX a v) s = .next (s.answered .ack) :=
  (gatedScheme3 hfatal hbank _).trans (by simp only [henable, hselect]; rfl)

theorem exec_s3WrX_of_rtc (henable : r.enable = true) {x : RtcReg} (hselect : r.select = .rtc x) (a : Addr)
    (v : Byte) :
    exec (.s3WrX a v) s = .next { s with
      bank := .scheme3 { r with live := r.live.set x v }, ports := { outcome := some .ack } } :=
  (gatedScheme3 hfatal hbank _).trans (by simp only [henable, hselect]; rfl)

theorem exec_s3WrX_of_ramBank (henable : r.enable = true) {n : BitVec 2} (hselect : r.select = .ramBank n)
    (a : Addr) (v : Byte) : exec (.s3WrX a v) s = writeRam (ramOffset n.toNat a) a v s :=
  (gatedScheme3 hfatal hbank _).trans (by simp only [henable, hselect]; rfl)

end SchemeThree

/-- Settles O23: the row is a control write of one field. -/
theorem s3EnableWrite : Obligations.S3EnableWrite := by
  intro s r a v hfatal hbank
  rw [exec_s3WrEn_of_bank hfatal hbank, enableOf_eq]

/-! The selection of a byte, by the ranges of R122. -/

theorem selectOf_ramBank : ∀ v : Byte, v.toNat ≤ 3 → selectOf v = .ramBank (BitVec.ofNat 2 v.toNat) := by
  decide

theorem selectOf_undefined :
    ∀ v : Byte, 3 < v.toNat → ¬ (8 ≤ v.toNat ∧ v.toNat ≤ 12) → selectOf v = .undefined := by
  decide

theorem selectOf_rtc :
    ∀ c ∈ [(0x08#8, RtcReg.S), (0x09#8, .M), (0x0A#8, .H), (0x0B#8, .DL), (0x0C#8, .DH)],
      selectOf c.1 = .rtc c.2 := by
  decide

/-- Settles O25: by the ranges of R122 the selection is defined or not, and the row is a control write, noted
where it is not. -/
theorem s3SelectorWrite : Obligations.S3SelectorWrite := by
  intro s r a v hfatal hbank
  refine ⟨fun hv => ?_, fun c hc hv => ?_, fun hv hv' => ?_⟩
  · have hsel := selectOf_ramBank v hv
    rw [exec_s3WrSel_of_defined hfatal hbank a (by simp [hsel]), hsel]
  · have hsel := selectOf_rtc c hc
    rw [hv, exec_s3WrSel_of_defined hfatal hbank a (by simp [hsel]), hsel]
  · exact exec_s3WrSel_of_undefined hfatal hbank a (selectOf_undefined v hv hv')

theorem Scheme3Regs.latchWrite_zero (r : Scheme3Regs) : r.latchWrite 0 = { r with latch := .armed } := rfl

/-- Every latch write but 0, and 1 while armed, disarms without a copy. -/
theorem Scheme3Regs.latchWrite_of_disarm {r : Scheme3Regs} {v : Byte} (hzero : v ≠ 0)
    (hone : ¬ (v = 1 ∧ r.latch = .armed)) : r.latchWrite v = { r with latch := .idle } := by
  unfold Scheme3Regs.latchWrite
  rw [if_neg hzero, if_neg hone]

/-- Settles O26: the row is a control write by the latch protocol. -/
theorem s3LatchWrite : Obligations.S3LatchWrite := by
  intro s r a v hfatal hbank
  rw [exec_s3WrLatch_of_bank hfatal hbank]
  refine ⟨fun hv => ?_, fun hv harmed => ?_, fun h => ?_⟩
  · rw [hv, r.latchWrite_zero]
  · rw [hv, Scheme3Regs.latchWrite_one_of_armed harmed]; rfl
  · rw [Scheme3Regs.latchWrite_of_disarm]
    · rintro rfl
      simp at h
    · rintro ⟨rfl, harmed⟩
      simp [harmed] at h

/-- Settles O27: the row is a ROM read in the selected bank. -/
theorem s3SwitchableRead : Obligations.S3SwitchableRead := by
  intro s r a off hfatal hbank hoff
  rw [exec_s3RdRomx_of_bank hfatal hbank, romOffset_eq, ← hoff]
  exact ⟨fun h => readRom_inside h a, fun h => readRom_beyond h a⟩

/-- Settles O28: by the gate, then the selection, then the bounds. -/
theorem s3ExternalRead : Obligations.S3ExternalRead := by
  intro s r a hfatal hbank
  refine ⟨fun henable => exec_s3RdX_of_disabled hfatal hbank henable a, fun henable =>
    ⟨fun h => exec_s3RdX_of_undefined hfatal hbank henable h a, ?_, ?_, ?_, ?_, ?_, fun n off h hoff => ?_⟩⟩
  case refine_6 =>
    rw [exec_s3RdX_of_ramBank hfatal hbank henable h, ramOffset_eq, ← hoff]
    exact ⟨fun h => readRam_inside h a, fun h => readRam_beyond h a⟩
  all_goals exact fun h => exec_s3RdX_of_rtc hfatal hbank henable h a

/-- Settles O29: by the gate, then the selection, then the bounds. -/
theorem s3ExternalWrite : Obligations.S3ExternalWrite := by
  intro s r a v hfatal hbank hwf
  refine ⟨fun henable => exec_s3WrX_of_disabled hfatal hbank henable a v, fun henable =>
    ⟨fun h => exec_s3WrX_of_undefined hfatal hbank henable h a v, fun x l h hl => ?_,
      fun n off h hoff => ?_⟩⟩
  · rw [exec_s3WrX_of_rtc hfatal hbank henable h, hl]
    cases x <;> rfl
  · rw [exec_s3WrX_of_ramBank hfatal hbank henable h, ramOffset_eq, ← hoff]
    exact ⟨fun h => writeRam_replaces_byte hwf h a v, fun h => writeRam_beyond h a v⟩

/-- Settles O16: each row is a ROM read in bank 0, where the offset is the address itself. -/
theorem fixedWindowReads : Obligations.FixedWindowReads := by
  intro s a hfatal ha i hi
  have hoff : romOffset 0 a = a.toNat := by rw [romOffset_eq]; omega
  have hexec : exec i s = readRom a.toNat a s := by
    rw [← hoff]
    rcases hi with ⟨rfl, hscheme⟩ | ⟨rfl, hscheme⟩
    · obtain ⟨r, hbank⟩ := State.scheme_eq_scheme1.1 hscheme
      exact exec_s1RdRom0_of_bank hfatal hbank a
    · obtain ⟨r, hbank⟩ := State.scheme_eq_scheme3.1 hscheme
      exact exec_s3RdRom0_of_bank hfatal hbank a
  rw [hexec]
  exact ⟨fun h => readRom_inside h a, fun h => readRom_beyond h a⟩

end Sys2Proof.Machine
end

section
/-! PROOFS. The phases, the next word and the step (spec/44_scheduler.md). -/

namespace Sys2Proof.Machine

/-! ### The phases -/

/-- The operation that runs a phase. -/
def Phase.instr : Phase → Instr
  | .poll => .poll
  | .cpu => .cpu
  | .disp => .disp
  | .tmr => .tmr
  | .yield => .yield
  | .stopped => .stopped

theorem encode_instr_phase (p : Phase) : encode p.instr = .phase p.code := by cases p <;> rfl

theorem decode_phase_code (p : Phase) : decode (.phase p.code) = .ok p.instr := by
  rw [← encode_instr_phase]
  exact decodeOfEncodeIsIdentity _ (by cases p <;> rfl)

theorem Phase.isBus_instr (p : Phase) : p.instr.isBus = false := by cases p <;> rfl

/-- A stage is one of the three of R157. -/
theorem Phase.instr_of_isStage (p : Phase) :
    p.isStage = true → (match p with | .cpu => Instr.cpu | .disp => .disp | _ => .tmr) = p.instr := by
  cases p <;> decide

/-- Settles O39: the gates are passed, and `frameStart` is the state named. -/
theorem pollStartsFrame : Obligations.PollStartsFrame := by
  intro s hfatal hphase
  exact (inPhase_of_phase hphase _).trans (unlessFatal_of_none hfatal _)

theorem State.stageNext_eq (s : State) (p : Phase) :
    s.stageNext p = if s.fatal = none then p else .stopped := by
  unfold State.stageNext
  cases s.fatal <;> simp

theorem Phase.strobe_ite (c : Prop) [Decidable c] (p q : Phase) :
    (if c then p else q).strobe = if c then p.strobe else q.strobe := by split <;> rfl

theorem exec_cpu_of_phase {s : State} (h : s.phase = .cpu) :
    exec .cpu s = .next (s.sequence .cpuAdvance (s.stageNext .disp)) := inPhase_of_phase h _

theorem exec_disp_of_phase {s : State} (h : s.phase = .disp) :
    exec .disp s = .next (s.sequence .displayAdvance (s.stageNext .tmr)) := inPhase_of_phase h _

theorem exec_tmr_of_fatal {s : State} (h : s.phase = .tmr) (hfatal : s.fatal ≠ none) :
    exec .tmr s = .next (s.sequence .timerAdvance .stopped) := by
  obtain ⟨f, hf⟩ := Option.ne_none_iff_exists'.1 hfatal
  exact (inPhase_of_phase h _).trans (by rw [hf])

theorem exec_tmr_of_safe {s : State} (h : s.phase = .tmr) (hfatal : s.fatal = none) :
    exec .tmr s = .next s.tickEnd :=
  (inPhase_of_phase h _).trans (by rw [hfatal])

/-- Settles O40: the stage goes where `stageNext` says, and raises the strobe of the phase it enters. -/
theorem cpuAndDisplayStagesAdvance : Obligations.CpuAndDisplayStagesAdvance := by
  intro s
  refine ⟨fun h => ?_, fun h => ?_, fun h hfatal => exec_tmr_of_fatal h hfatal⟩
  · rw [exec_cpu_of_phase h, s.stageNext_eq, State.sequence, Phase.strobe_ite]; rfl
  · rw [exec_disp_of_phase h, s.stageNext_eq, State.sequence, Phase.strobe_ite]; rfl

/-! ### The end of a tick -/

theorem State.rtcTick_eq_setBank (s : State) : s.rtcTick = s.setBank s.rtcTick.bank := by
  unfold State.rtcTick
  split <;> rfl

theorem State.rtcTick_bank_of_not_scheme3 {s : State} (h : ∀ r, s.bank ≠ .scheme3 r) :
    s.rtcTick.bank = s.bank := by
  unfold State.rtcTick
  split
  · next r hr => exact absurd hr (h r)
  all_goals rfl

theorem rtcTick_of_halt {r : Scheme3Regs} (n : Nat) (h : r.live.dayHigh.getLsbD 6 = true) :
    rtcTick n r = r := if_pos h

theorem rtcTick_of_last {r : Scheme3Regs} {n : Nat} (h : r.live.dayHigh.getLsbD 6 = false)
    (hlast : r.rtcSub + 1 = n) :
    rtcTick n r = { r with rtcSub := 0, live := secondAdvance r.live } := by
  rw [rtcTick, RtcRegs.halt, h, if_neg Bool.false_ne_true, if_pos hlast]

theorem rtcTick_of_not_last {r : Scheme3Regs} {n : Nat} (h : r.live.dayHigh.getLsbD 6 = false)
    (hlast : r.rtcSub + 1 ≠ n) : rtcTick n r = { r with rtcSub := r.rtcSub + 1 } := by
  rw [rtcTick, RtcRegs.halt, h, if_neg Bool.false_ne_true, if_neg hlast]

/-- The end of a tick, field by field; the bank group is that of the RTC tick. -/
theorem State.tickEnd_eq (s : State) :
    s.tickEnd = { s with
      bank := s.rtcTick.bank
      cycleCounter := s.cycleCounter + 1
      phase := if s.cycleCounter + 1 = s.session.mainCycles then .yield else .cpu
      ports :=
        { call := some .timerAdvance
          raised := if s.cycleCounter + 1 = s.session.mainCycles then [] else [.cpuAdvance] } } := by
  rw [State.tickEnd, State.rtcTick_eq_setBank, State.sequence, Phase.strobe_ite]
  rfl

/-- Settles O36: `TMR` is the end of the tick, and the bank group is that of the RTC tick: of no other scheme
than Scheme3, and there by the halt flag and the prescaler. -/
theorem timerStageEndsTick : Obligations.TimerStageEndsTick := by
  intro s b hfatal hphase hb
  have hbank : s.rtcTick.bank = b := by
    rcases hb with ⟨hnot, rfl⟩ | ⟨r, hr, ⟨hhalt, rfl⟩ | ⟨hrun, hlast, rfl⟩ | ⟨hrun, hlast, rfl⟩⟩
    · exact State.rtcTick_bank_of_not_scheme3 hnot
    · rw [State.rtcTick_bank_of_scheme3 hr, rtcTick_of_halt _ hhalt]
    · rw [State.rtcTick_bank_of_scheme3 hr, rtcTick_of_last hrun hlast]
    · rw [State.rtcTick_bank_of_scheme3 hr, rtcTick_of_not_last hrun hlast]
  rw [exec_tmr_of_safe hphase hfatal, State.tickEnd_eq, hbank]

/-! ### The end of a frame -/

theorem exec_yield_of_safe {s : State} (h : s.phase = .yield) (hfatal : s.fatal = none) :
    exec .yield s = .next { s with
      phase := if s.exitRequest then .stopped else .poll
      exitLevels := s.exitLevels.tail
      ports := { call := some .frameDone } } := by
  refine ((inPhase_of_phase h _).trans (unlessFatal_of_none hfatal _)).trans ?_
  rw [State.sequence, Phase.strobe_ite, Phase.strobe_stopped, Phase.strobe_poll, ite_self]

/-- Settles O41: the level sampled is the head of the list, and 0 when the list is empty. -/
theorem yieldSamplesExit : Obligations.YieldSamplesExit := by
  intro s e rest hfatal hphase
  rw [exec_yield_of_safe hphase hfatal, State.exitRequest]
  exact ⟨fun h => by rw [h]; rfl, fun h => by simp [h]⟩

/-! ### The next word -/

theorem fetchWord_of_not_stage {s : State} (h : s.phase.isStage = false) :
    fetchWord s = encode s.phase.instr := by
  rw [encode_instr_phase, fetchWord, h, if_neg Bool.false_ne_true]

theorem consume_of_not_stage {s : State} (h : s.phase.isStage = false) : consume s = s := by
  rw [consume, h, if_neg Bool.false_ne_true]

theorem fetchWord_of_stage {s : State} (h : s.phase.isStage = true) :
    fetchWord s = stageWord s.phase s.scheme s.events := if_pos h

theorem consume_of_stage {s : State} (h : s.phase.isStage = true) :
    consume s = { s with events := s.events.tail } := if_pos h

/-- Settles O5: decoding gives the operation that `runWord` runs. -/
theorem stepRunsFetchedInstr : Obligations.StepRunsFetchedInstr := by
  intro s i h
  rw [step, runWord, h]

/-- Settles O6: in a stage the word is `stageWord` of the list of events, elsewhere the phase. -/
theorem nextWordIsTransactionOrPhase : Obligations.NextWordIsTransactionOrPhase := by
  intro s
  refine ⟨fun hst => ?_, fun h => ?_, fun h => ?_, fun h => ?_⟩
  · have hreturn := (encode_instr_phase _).symm.trans (congrArg encode (s.phase.instr_of_isStage hst).symm)
    rw [fetchWord_of_stage hst, consume_of_stage hst]
    refine ⟨fun a rest h => ?_, fun a v rest h => ?_, fun rest h => ?_, fun h => ?_⟩ <;> rw [h]
    · exact ⟨rfl, rfl⟩
    · exact ⟨rfl, rfl⟩
    · exact ⟨hreturn, rfl⟩
    · exact ⟨hreturn, by rw [List.tail_nil, ← h]⟩
  all_goals
    have hst : s.phase.isStage = false := by rw [h]; rfl
    rw [fetchWord_of_not_stage hst, consume_of_not_stage hst, h]
    exact ⟨rfl, rfl⟩

/-! ### A step, by the next word -/

/-- Outside the stages a step runs the phase. -/
theorem step_of_not_stage {s : State} (h : s.phase.isStage = false) : step s = exec s.phase.instr s := by
  have hdecode : decode (fetchWord s) = .ok s.phase.instr := by
    rw [fetchWord_of_not_stage h, encode_instr_phase, decode_phase_code]
  rw [stepRunsFetchedInstr s _ hdecode, consume_of_not_stage h]

/-- Settles O42: the phase is no stage, so a step is the phase, which makes no call. -/
theorem stoppedChangesNothing : Obligations.StoppedChangesNothing := by
  intro s hphase
  have hexec : exec .stopped s = .next { s with ports := {} } := inPhase_of_phase hphase _
  have hinstr : s.phase.instr = .stopped := by rw [hphase]; rfl
  exact ⟨hexec, by rw [step_of_not_stage (by rw [hphase]; rfl), hinstr, hexec]⟩

end Sys2Proof.Machine
end

section
/-! PROOFS. Transactions and scripts at the bus (spec/20_memory.md, spec/40_scheme_none.md section 4,
spec/41_scheme1.md section 4, spec/42_scheme3.md section 4). -/

namespace Sys2Proof.Machine

/-! ### Transactions and scripts -/

theorem inRange_iff {a : Addr} {lo hi : Nat} : inRange a lo hi = true ↔ lo ≤ a.toNat ∧ a.toNat ≤ hi := by
  simp [inRange]

/-- A transaction runs the operation whose word it is. -/
theorem transact_eq_exec {s : State} {b : BankController} {x : Access} {i : Instr} (hbank : s.bank = b)
    (hword : encode i = .bus (x.word b.scheme)) (hwf : i.wf = true) : transact x s = exec i s := by
  rw [transact, runWord, State.scheme, hbank, ← hword, decodeOfEncodeIsIdentity i hwf]

theorem runScript_cons {x : Access} {s t : State} (xs : List Access) (h : transact x s = .next t) :
    runScript (x :: xs) s = runScript xs t := by
  rw [runScript, h]

theorem runScript_cons_next {x : Access} {xs : List Access} {s t : State}
    (h : runScript (x :: xs) s = .next t) : ∃ u, transact x s = .next u ∧ runScript xs u = .next t := by
  unfold runScript at h
  split at h
  · exact ⟨_, ‹_›, h⟩
  all_goals cases h

/-- Outside the cartridge's windows a transaction of a live scheme is forwarded. -/
theorem transact_forward {s : State} (hfatal : s.fatal = none) (hscheme : s.scheme ≠ .unsupported)
    (x : Access) (h : 0x8000 ≤ x.addr.toNat ∧ x.addr.toNat ≤ 0x9FFF ∨ 0xC000 ≤ x.addr.toNat) :
    ∃ w, transact x s = .next (forward w s) := by
  have hlive : ∀ {w : Dir} {v : Byte}, forwardData w v = v → forwardOk s.scheme w v = true :=
    fun hv => forwardOk_iff.2 ⟨hscheme, hv⟩
  rcases h with h | h
  · have hin := inRange_iff.2 h
    cases x with
    | read a =>
      exact ⟨.read, (transact_eq_exec (i := .fwd8 s.scheme .read a 0) rfl rfl
        (Bool.and_eq_true_iff.2 ⟨hin, hlive rfl⟩)).trans (exec_fwd8_of_safe hfatal ..)⟩
    | write a v =>
      exact ⟨.write, (transact_eq_exec (i := .fwd8 s.scheme .write a v) rfl rfl
        (Bool.and_eq_true_iff.2 ⟨hin, hlive rfl⟩)).trans (exec_fwd8_of_safe hfatal ..)⟩
  · have hin := inRange_iff.2 ⟨h, Nat.le_of_lt_succ x.addr.isLt⟩
    cases x with
    | read a =>
      exact ⟨.read, (transact_eq_exec (i := .fwdC s.scheme .read a 0) rfl rfl
        (Bool.and_eq_true_iff.2 ⟨hin, hlive rfl⟩)).trans (exec_fwdC_of_safe hfatal ..)⟩
    | write a v =>
      exact ⟨.write, (transact_eq_exec (i := .fwdC s.scheme .write a v) rfl rfl
        (Bool.and_eq_true_iff.2 ⟨hin, hlive rfl⟩)).trans (exec_fwdC_of_safe hfatal ..)⟩

/-! ### Scheme None -/

section SchemeNone

variable {s : State} (hfatal : s.fatal = none) (hbank : s.bank = .noController)

include hfatal hbank

theorem transact_read_none {a : Addr} (ha : a.toNat < 0x8000) (hrom : a.toNat < s.session.romLen) :
    transact (.read a) s = .next (s.answered (.data (s.session.rom.read a.toNat))) := by
  rw [transact_eq_exec (i := .nRdRom a) hbank rfl (inRange_iff.2 (by omega)),
    exec_nRdRom_of_bank hfatal hbank, readRom_inside hrom]

/-- A transaction outside the external window, and inside the image if it reads ROM, changes no state. -/
theorem transact_none_sameBlock (x : Access) (hx : ¬ (0xA000 ≤ x.addr.toNat ∧ x.addr.toNat ≤ 0xBFFF))
    (hrom : ∀ a : Addr, x = .read a → a.toNat < 0x8000 → a.toNat < s.session.romLen) :
    ∃ t, transact x s = .next t ∧ s.sameBlock t := by
  by_cases hlow : x.addr.toNat < 0x8000
  · cases x with
    | read a => exact ⟨_, transact_read_none hfatal hbank hlow (hrom a rfl hlow), s.sameBlock_answer _⟩
    | write a v =>
      refine ⟨s.answered .ack, ?_, s.sameBlock_answer _⟩
      rw [transact_eq_exec (i := .nWrRom a v) hbank rfl
          (inRange_iff.2 ⟨Nat.zero_le _, Nat.le_of_lt_succ hlow⟩),
        noneRomWriteDiscarded s a v hfatal hbank]
  · have hscheme : s.scheme ≠ .unsupported := by rw [State.scheme_eq_none.2 hbank]; decide
    obtain ⟨w, hw⟩ := transact_forward hfatal hscheme x (by omega)
    exact ⟨_, hw, s.sameBlock_forward w⟩

end SchemeNone

/-- Settles O11: by induction on the script, whose every transaction leaves the block as it was; and a read
looks at the block alone. -/
theorem noneSessionIsLiteralRom : Obligations.NoneSessionIsLiteralRom := by
  intro xs
  induction xs with
  | nil =>
    intro s hfatal hbank _ _
    exact ⟨s, rfl, s.sameBlock_refl, fun a ha hrom => transact_read_none hfatal hbank ha hrom⟩
  | cons x xs ih =>
    intro s hfatal hbank hwindow hrom
    obtain ⟨u, hu, hsame⟩ := transact_none_sameBlock hfatal hbank x (hwindow x (by simp))
      fun a ha => hrom a (by simp [ha])
    obtain ⟨hsession, hbank', -, -, -, hfatal'⟩ := id hsame
    obtain ⟨t, ht, hsame', hread⟩ := ih u (hfatal'.trans hfatal) (hbank'.trans hbank)
      (fun y hy => hwindow y (by simp [hy])) fun a ha => by
        rw [hsession]; exact hrom a (by simp [ha])
    rw [hsession] at hread
    exact ⟨t, by rw [runScript_cons xs hu, ht], State.sameBlock_trans hsame hsame', hread⟩

/-! ### Scheme1 -/

section SchemeOne

variable {s : State} {r : Scheme1Regs} (hbank : s.bank = .scheme1 r)

include hbank

theorem transact_write_s1_enable (hfatal : s.fatal = none) {a : Addr} (ha : a.toNat < 0x2000) (v : Byte) :
    ∃ t, transact (.write a v) s = .next t ∧ t.fatal = none ∧
      t.bank = .scheme1 { r with ramEnable := enableOf v } ∧ t.session = s.session ∧ t.ram = s.ram := by
  rw [transact_eq_exec (i := .s1WrRamen a v) hbank rfl (inRange_iff.2 (by omega)),
    exec_s1WrRamen_of_bank hfatal hbank]
  exact ⟨_, rfl, hfatal, rfl, rfl, rfl⟩

theorem transact_write_s1_bank (hfatal : s.fatal = none) {a : Addr} (ha : 0x2000 ≤ a.toNat)
    (ha' : a.toNat ≤ 0x3FFF) (v : Byte) :
    ∃ t, transact (.write a v) s = .next t ∧ t.fatal = none ∧
      t.bank = .scheme1 { r with romLo := lowBankOf v } ∧ t.session = s.session := by
  rw [transact_eq_exec (i := .s1WrRomlo a v) hbank rfl (inRange_iff.2 ⟨ha, ha'⟩),
    exec_s1WrRomlo_of_bank hfatal hbank]
  exact ⟨_, rfl, hfatal, rfl, rfl⟩

theorem transact_read_s1_switchable {a : Addr} (ha : 0x4000 ≤ a.toNat) (ha' : a.toNat ≤ 0x7FFF) :
    transact (.read a) s = exec (.s1RdRomx a) s :=
  transact_eq_exec hbank rfl (inRange_iff.2 ⟨ha, ha'⟩)

theorem transact_read_s1_window {a : Addr} (ha : 0xA000 ≤ a.toNat) (ha' : a.toNat ≤ 0xBFFF) :
    transact (.read a) s = exec (.s1RdXram a) s :=
  transact_eq_exec hbank rfl (inRange_iff.2 ⟨ha, ha'⟩)

theorem transact_write_s1_window {a : Addr} (ha : 0xA000 ≤ a.toNat) (ha' : a.toNat ≤ 0xBFFF) (v : Byte) :
    transact (.write a v) s = exec (.s1WrXram a v) s :=
  transact_eq_exec hbank rfl (inRange_iff.2 ⟨ha, ha'⟩)

/-- A write through the open window replaces one byte of RAM and leaves the registers. -/
theorem transact_write_s1_ram (hfatal : s.fatal = none) (hwf : s.ram.wf) (henable : r.ramEnable = true)
    (hmode : r.mode = .ram) {a : Addr} (ha : 0xA000 ≤ a.toNat) (ha' : a.toNat ≤ 0xBFFF)
    (hoff : r.ramBank.toNat * 8192 + a.toNat % 8192 < s.session.ramSize) (v : Byte) :
    ∃ t, transact (.write a v) s = .next t ∧ t.fatal = none ∧ t.bank = .scheme1 r ∧
      t.session = s.session ∧
      ∀ x, t.ram.read x = if x = r.ramBank.toNat * 8192 + a.toNat % 8192 then v else s.ram.read x := by
  obtain ⟨m, hm, -, hread⟩ := (s1ExternalWrite s r a v _ hfatal hbank hwf rfl).2.1 henable hmode hoff
  exact ⟨_, (transact_write_s1_window hbank ha ha' v).trans hm, hfatal, hbank, rfl, hread⟩

end SchemeOne

/-- Settles O20: the write leaves the window closed, and a closed window is inert. -/
theorem s1DisabledWindowIsInert : Obligations.S1DisabledWindowIsInert := by
  intro s r a v hfatal hbank ha hv
  obtain ⟨t, ht, hfatal', hbank', hsession, hram⟩ := transact_write_s1_enable hbank hfatal ha v
  have hclosed : enableOf v ≠ true := by simp [enableOf_eq, hv]
  refine ⟨t, ht, hram, fun b hb hb' => ⟨?_, fun w => ?_⟩⟩
  · rw [transact_read_s1_window hbank' hb hb', ← hsession]
    exact (s1ExternalRead t _ b _ hfatal' hbank' rfl).1 fun h => hclosed h.1
  · rw [transact_write_s1_window hbank' hb hb', exec_s1WrXram_of_bank hfatal' hbank',
      if_neg fun h => hclosed ((Scheme1Regs.windowOpen_iff _).1 h).1]
    rfl

/-! ### Scheme3 -/

section SchemeThree

variable {s : State} {r : Scheme3Regs} (hbank : s.bank = .scheme3 r)

include hbank

theorem transact_write_s3_bank (hfatal : s.fatal = none) {a : Addr} (ha : 0x2000 ≤ a.toNat)
    (ha' : a.toNat ≤ 0x3FFF) (v : Byte) :
    ∃ t, transact (.write a v) s = .next t ∧ t.fatal = none ∧
      t.bank = .scheme3 { r with romBank := bank7Of v } ∧ t.session = s.session := by
  rw [transact_eq_exec (i := .s3WrRomb a v) hbank rfl (inRange_iff.2 ⟨ha, ha'⟩),
    exec_s3WrRomb_of_bank hfatal hbank]
  exact ⟨_, rfl, hfatal, rfl, rfl⟩

theorem transact_write_s3_latch (hfatal : s.fatal = none) {a : Addr} (ha : 0x6000 ≤ a.toNat)
    (ha' : a.toNat ≤ 0x7FFF) (v : Byte) :
    ∃ t, transact (.write a v) s = .next t ∧ t.fatal = none ∧ t.bank = .scheme3 (r.latchWrite v) := by
  rw [transact_eq_exec (i := .s3WrLatch a v) hbank rfl (inRange_iff.2 ⟨ha, ha'⟩),
    exec_s3WrLatch_of_bank hfatal hbank]
  exact ⟨_, rfl, hfatal, rfl⟩

/-- A write of the window with an RTC register selected reaches the live register. -/
theorem transact_write_s3_rtc (hfatal : s.fatal = none) (henable : r.enable = true) {x : RtcReg}
    (hselect : r.select = .rtc x) {a : Addr} (ha : 0xA000 ≤ a.toNat) (ha' : a.toNat ≤ 0xBFFF) (v : Byte) :
    ∃ t, transact (.write a v) s = .next t ∧ t.fatal = none ∧
      t.bank = .scheme3 { r with live := r.live.set x v } := by
  rw [transact_eq_exec (i := .s3WrX a v) hbank rfl (inRange_iff.2 ⟨ha, ha'⟩),
    exec_s3WrX_of_rtc hfatal hbank henable hselect]
  exact ⟨_, rfl, hfatal, rfl⟩

theorem transact_read_s3_switchable {a : Addr} (ha : 0x4000 ≤ a.toNat) (ha' : a.toNat ≤ 0x7FFF) :
    transact (.read a) s = exec (.s3RdRomx a) s :=
  transact_eq_exec hbank rfl (inRange_iff.2 ⟨ha, ha'⟩)

theorem transact_read_s3_window {a : Addr} (ha : 0xA000 ≤ a.toNat) (ha' : a.toNat ≤ 0xBFFF) :
    transact (.read a) s = exec (.s3RdX a) s :=
  transact_eq_exec hbank rfl (inRange_iff.2 ⟨ha, ha'⟩)

theorem transact_write_s3_window {a : Addr} (ha : 0xA000 ≤ a.toNat) (ha' : a.toNat ≤ 0xBFFF) (v : Byte) :
    transact (.write a v) s = exec (.s3WrX a v) s :=
  transact_eq_exec hbank rfl (inRange_iff.2 ⟨ha, ha'⟩)

/-- A write through the open window with a RAM bank selected replaces one byte of RAM and leaves the
registers. -/
theorem transact_write_s3_ram (hfatal : s.fatal = none) (hwf : s.ram.wf) (henable : r.enable = true)
    {n : BitVec 2} (hselect : r.select = .ramBank n) {a : Addr} (ha : 0xA000 ≤ a.toNat)
    (ha' : a.toNat ≤ 0xBFFF) (hoff : n.toNat * 8192 + a.toNat % 8192 < s.session.ramSize) (v : Byte) :
    ∃ t, transact (.write a v) s = .next t ∧ t.fatal = none ∧ t.bank = .scheme3 r ∧
      t.session = s.session ∧
      ∀ x, t.ram.read x = if x = n.toNat * 8192 + a.toNat % 8192 then v else s.ram.read x := by
  have hexec := exec_s3WrX_of_ramBank hfatal hbank henable hselect a v
  rw [ramOffset_eq] at hexec
  obtain ⟨m, hm, -, hread⟩ := writeRam_replaces_byte hwf hoff a v
  exact ⟨_, (transact_write_s3_window hbank ha ha' v).trans (hexec.trans hm), hfatal, hbank, rfl, hread⟩

end SchemeThree

/-- Settles O21: the bank write stores the coerced bank, and the read forms its offset from the stored bank. -/
theorem bankWriteThenReadShowsBank : Obligations.BankWriteThenReadShowsBank := by
  intro s w a v hfatal hw hw' ha ha'
  refine ⟨fun r off hbank hhi hmode hoff hrom => ?_, fun r off hbank hoff hrom => ?_⟩
  · obtain ⟨t, ht, hfatal', hbank', hsession⟩ := transact_write_s1_bank hbank hfatal hw hw' v
    rw [← hsession] at hrom ⊢
    have hzero : r.romHi.toNat = 0 := by rw [hhi]; rfl
    have hread := (s1SwitchableRead t _ a off hfatal' hbank' (by
      simp only [hmode, if_true, Scheme1Regs.romBank_toNat, lowBankOf_eq, hzero, BitVec.toNat_ofNat, hoff]
      omega)).1 hrom
    rw [runScript_cons _ ht, runScript_cons _ ((transact_read_s1_switchable hbank' ha ha').trans hread)]
    exact ⟨_, rfl, rfl⟩
  · obtain ⟨t, ht, hfatal', hbank', hsession⟩ := transact_write_s3_bank hbank hfatal hw hw' v
    rw [← hsession] at hrom ⊢
    have hread := (s3SwitchableRead t _ a off hfatal' hbank' (by
      simp only [bank7Of_eq, BitVec.toNat_ofNat, hoff]
      omega)).1 hrom
    rw [runScript_cons _ ht, runScript_cons _ ((transact_read_s3_switchable hbank' ha ha').trans hread)]
    exact ⟨_, rfl, rfl⟩

theorem RtcRegs.get_set (x : RtcRegs) (r : RtcReg) (v : Byte) : (x.set r v).get r = v := by
  cases r <;> rfl

/-- Settles O30: the write reaches the live register, 0 arms, 1 copies the live registers, and the read
returns the copy. -/
theorem rtcWriteLatchReadRoundTrip : Obligations.RtcWriteLatchReadRoundTrip := by
  intro s r x v a b c d hfatal hbank henable hselect ha ha' hb hb' hc hc' hd hd'
  obtain ⟨t₁, h₁, hfatal₁, hbank₁⟩ := transact_write_s3_rtc hbank hfatal henable hselect ha ha' v
  obtain ⟨t₂, h₂, hfatal₂, hbank₂⟩ := transact_write_s3_latch hbank₁ hfatal₁ hb hb' 0
  obtain ⟨t₃, h₃, hfatal₃, hbank₃⟩ := transact_write_s3_latch hbank₂ hfatal₂ hc hc' 1
  rw [Scheme3Regs.latchWrite_zero, Scheme3Regs.latchWrite_one_of_armed rfl] at hbank₃
  have hread := exec_s3RdX_of_rtc hfatal₃ hbank₃ henable hselect d
  rw [runScript_cons _ h₁, runScript_cons _ h₂, runScript_cons _ h₃,
    runScript_cons _ ((transact_read_s3_window hbank₃ hd hd').trans hread)]
  exact ⟨_, rfl, congrArg (fun y => some (BusOutcome.data y)) (r.live.get_set x v)⟩

/-- Two windows of 0x2000 bytes: the offset in the bank tells the address. -/
theorem window_offset_inj {a b : Addr} (ha : 0xA000 ≤ a.toNat) (ha' : a.toNat ≤ 0xBFFF)
    (hb : 0xA000 ≤ b.toNat) (hb' : b.toNat ≤ 0xBFFF) (n : Nat) :
    n * 8192 + b.toNat % 8192 = n * 8192 + a.toNat % 8192 ↔ a = b := by
  rw [← BitVec.toNat_inj]
  omega

/-- Settles O34: through either window the write replaces one byte of RAM and leaves the registers, so the
read looks at the new image through the same open window. -/
theorem ramReadAfterWrite : Obligations.RamReadAfterWrite := by
  intro s a b v n hfatal hwf ha ha' hb hb' hoff hoff' hopen
  have hbyte : ∀ {m : Memory} (_ : ∀ x, m.read x =
      if x = n.toNat * 8192 + a.toNat % 8192 then v else s.ram.read x),
      m.read (n.toNat * 8192 + b.toNat % 8192) =
        if a = b then v else s.ram.read (n.toNat * 8192 + b.toNat % 8192) := fun hread => by
    simp only [hread, window_offset_inj ha ha' hb hb']
  rcases hopen with ⟨r, hbank, henable, hmode, rfl⟩ | ⟨r, hbank, henable, hselect⟩
  · obtain ⟨t, ht, hfatal', hbank', hsession, hread⟩ :=
      transact_write_s1_ram hbank hfatal hwf henable hmode ha ha' hoff v
    have hexec := (s1ExternalRead t r b _ hfatal' hbank' rfl).2.1 henable hmode (hsession ▸ hoff')
    rw [hbyte hread] at hexec
    rw [runScript_cons _ ht, runScript_cons _ ((transact_read_s1_window hbank' hb hb').trans hexec)]
    exact ⟨_, rfl, rfl⟩
  · obtain ⟨t, ht, hfatal', hbank', hsession, hread⟩ :=
      transact_write_s3_ram hbank hfatal hwf henable hselect ha ha' hoff v
    have hexec := exec_s3RdX_of_ramBank hfatal' hbank' henable hselect b
    rw [ramOffset_eq, readRam_inside (hsession ▸ hoff'), hbyte hread] at hexec
    rw [runScript_cons _ ht, runScript_cons _ ((transact_read_s3_window hbank' hb hb').trans hexec)]
    exact ⟨_, rfl, rfl⟩

/-! ### Repeated control writes -/

/-- A refused transaction is refused again. -/
theorem unlessFatal_silent {s : State} {f : ErrorRecord} (hf : s.fatal = some f) (k : Result) :
    unlessFatal s.silent k = .next s.silent :=
  unlessFatal_of_some (s := s.silent) hf k

/-- A control write of Scheme1 by an idempotent function, repeated, changes nothing more. -/
theorem writeScheme1_repeated {s t : State} {f : Scheme1Regs → Scheme1Regs} (hf : ∀ r, f (f r) = f r)
    (h : writeScheme1 s f = .next t) : writeScheme1 t f = .next t := by
  rcases unlessFatal_next h with ⟨g, hg, rfl⟩ | ⟨hsafe, h⟩
  · exact unlessFatal_silent hg _
  · obtain ⟨r, hr, h⟩ := onScheme1_next h
    cases h
    have hsafe' : ((s.setBank (.scheme1 (f r))).answer .ack).fatal = none := hsafe
    rw [writeScheme1_of_bank hsafe' rfl, hf]
    rfl

/-- A control write of Scheme3 by an idempotent function, repeated, changes nothing more. -/
theorem writeScheme3_repeated {s t : State} {f : Scheme3Regs → Scheme3Regs} (hf : ∀ r, f (f r) = f r)
    (h : writeScheme3 s f = .next t) : writeScheme3 t f = .next t := by
  rcases unlessFatal_next h with ⟨g, hg, rfl⟩ | ⟨hsafe, h⟩
  · exact unlessFatal_silent hg _
  · obtain ⟨r, hr, h⟩ := onScheme3_next h
    cases h
    have hsafe' : ((s.setBank (.scheme3 (f r))).answer .ack).fatal = none := hsafe
    rw [writeScheme3_of_bank hsafe' rfl, hf]
    rfl

theorem Scheme1Regs.setUpper_setUpper (r : Scheme1Regs) (x : BitVec 2) :
    (r.setUpper x).setUpper x = r.setUpper x := by
  unfold Scheme1Regs.setUpper
  cases r.mode <;> rfl

/-- 0 arms again; 1 copies at most the first time; every other write disarms again. -/
theorem Scheme3Regs.latchWrite_latchWrite (r : Scheme3Regs) (v : Byte) :
    (r.latchWrite v).latchWrite v = r.latchWrite v := by
  by_cases hzero : v = 0
  · subst hzero; rfl
  have hidle : (r.latchWrite v).latch = .idle := by
    unfold Scheme3Regs.latchWrite
    rw [if_neg hzero]
    split <;> rfl
  rw [Scheme3Regs.latchWrite_of_disarm hzero (by simp [hidle]), ← hidle]

theorem exec_s3WrSel_repeated {s t : State} {a : Addr} {v : Byte} (h : exec (.s3WrSel a v) s = .next t) :
    exec (.s3WrSel a v) t = .next t := by
  rcases unlessFatal_next h with ⟨g, hg, rfl⟩ | ⟨hsafe, h'⟩
  · exact unlessFatal_silent hg _
  obtain ⟨r, hr, -⟩ := onScheme3_next h'
  by_cases hv : selectOf v = .undefined
  · cases (exec_s3WrSel_of_undefined hsafe hr a hv).symm.trans h
    exact exec_s3WrSel_of_undefined (r := { r with select := .undefined }) (by exact hsafe) (by rfl) a hv
  · cases (exec_s3WrSel_of_defined hsafe hr a hv).symm.trans h
    exact exec_s3WrSel_of_defined (r := { r with select := selectOf v }) (by exact hsafe) (by rfl) a hv

/-- Settles O22: what each control write does to the registers is idempotent. -/
theorem repeatedControlWriteIsIdempotent : Obligations.RepeatedControlWriteIsIdempotent := by
  intro s t a v i hi h
  simp only [List.mem_cons, List.not_mem_nil, or_false] at hi
  rcases hi with rfl | rfl | rfl | rfl | rfl | rfl | rfl | rfl
  · exact writeScheme1_repeated (fun _ => rfl) h
  · exact writeScheme1_repeated (fun _ => rfl) h
  · exact writeScheme1_repeated (fun r => r.setUpper_setUpper _) h
  · exact writeScheme1_repeated (fun _ => rfl) h
  · exact writeScheme3_repeated (fun _ => rfl) h
  · exact writeScheme3_repeated (fun _ => rfl) h
  · exact exec_s3WrSel_repeated h
  · exact writeScheme3_repeated (fun r => r.latchWrite_latchWrite v) h

/-! ### Latch sequences -/

@[simp] theorem Scheme3Regs.latchWrite_live (r : Scheme3Regs) (v : Byte) :
    (r.latchWrite v).live = r.live := by
  unfold Scheme3Regs.latchWrite
  split
  · rfl
  · split <;> rfl

/-- 0 arms, and nothing else does. -/
theorem Scheme3Regs.latchWrite_armed_iff (r : Scheme3Regs) (v : Byte) :
    (r.latchWrite v).latch = .armed ↔ v = 0 := by
  unfold Scheme3Regs.latchWrite
  split
  · next hzero => simp [hzero]
  · next hzero => split <;> simpa using hzero

/-- A script of latch writes folds the latch protocol over the written bytes. -/
theorem runScript_latchWrites (ws : List (Addr × Byte)) {s : State} {r : Scheme3Regs}
    (hfatal : s.fatal = none) (hbank : s.bank = .scheme3 r)
    (hws : ∀ w ∈ ws, 0x6000 ≤ w.1.toNat ∧ w.1.toNat ≤ 0x7FFF) :
    ∃ t, runScript (ws.map fun w => .write w.1 w.2) s = .next t ∧
      t.bank = .scheme3 ((ws.map Prod.snd).foldl Scheme3Regs.latchWrite r) := by
  induction ws generalizing s r with
  | nil => exact ⟨s, rfl, hbank⟩
  | cons w ws ih =>
    obtain ⟨hlo, hhi⟩ := hws w (by simp)
    obtain ⟨u, hu, hfatal', hbank'⟩ := transact_write_s3_latch hbank hfatal hlo hhi w.2
    rw [List.map_cons, runScript_cons _ hu]
    exact ih hfatal' hbank' fun y hy => hws y (by simp [hy])

theorem foldl_latchWrite_live (bs : List Byte) (r : Scheme3Regs) :
    (bs.foldl Scheme3Regs.latchWrite r).live = r.live := by
  induction bs generalizing r with
  | nil => rfl
  | cons b bs ih => rw [List.foldl_cons, ih, r.latchWrite_live]

/-- Over a sequence of latch writes the snapshot is copied by a 0 immediately before a 1, or by a 1 at the
front while armed. -/
theorem foldl_latchWrite_snap (bs : List Byte) (r : Scheme3Regs) :
    ([0x00#8, 0x01#8] <:+: bs ∨ r.latch = .armed ∧ [0x01#8] <+: bs →
      (bs.foldl Scheme3Regs.latchWrite r).snap = r.live) ∧
    (¬ ([0x00#8, 0x01#8] <:+: bs ∨ r.latch = .armed ∧ [0x01#8] <+: bs) →
      (bs.foldl Scheme3Regs.latchWrite r).snap = r.snap) := by
  induction bs generalizing r with
  | nil => simp
  | cons b bs ih =>
    have hinfix : [0x00#8, 0x01#8] <:+: b :: bs ↔
        (b = 0 ∧ [0x01#8] <+: bs) ∨ [0x00#8, 0x01#8] <:+: bs := by
      rw [List.infix_cons_iff, List.cons_prefix_cons, eq_comm]
      rfl
    have hprefix : [0x01#8] <+: b :: bs ↔ b = 1 := by
      rw [List.cons_prefix_cons, eq_comm]
      simp
    obtain ⟨hcopy, hkeep⟩ := ih (r.latchWrite b)
    rw [r.latchWrite_live, r.latchWrite_armed_iff] at hcopy
    rw [r.latchWrite_armed_iff, r.latchWrite_snap] at hkeep
    rw [List.foldl_cons, hinfix, hprefix]
    by_cases h : [0x00#8, 0x01#8] <:+: bs ∨ b = 0 ∧ [0x01#8] <+: bs
    · exact ⟨fun _ => hcopy h, fun hnot => by tauto⟩
    · rw [hkeep h]
      exact ⟨fun hcopies => if_pos (by tauto), fun hnot => if_neg (by tauto)⟩

/-- Settles O31: a script of latch writes folds the latch protocol, and from `Idle` no 1 at the front
copies. -/
theorem latchCopiesExactlyOnZeroThenOne : Obligations.LatchCopiesExactlyOnZeroThenOne := by
  intro ws s r hfatal hbank hidle hws
  obtain ⟨t, ht, hbank'⟩ := runScript_latchWrites ws hfatal hbank hws
  obtain ⟨hcopy, hkeep⟩ := foldl_latchWrite_snap (ws.map Prod.snd) r
  refine ⟨t, _, ht, hbank', foldl_latchWrite_live _ r, fun h => hcopy (.inl h), fun h => hkeep ?_⟩
  simp [h, hidle]

/-! ### What a read shows -/

/-- Two results answer alike at the ports. -/
def SamePorts (k k' : Result) : Prop :=
  ∃ t t', k = .next t ∧ k' = .next t' ∧ t.ports = t'.ports

theorem readRom_samePorts {s s' : State} (hsession : s'.session = s.session) (hscheme : s'.scheme = s.scheme)
    (off : Nat) (a : Addr) : SamePorts (readRom off a s) (readRom off a s') := by
  unfold readRom
  rw [hsession]
  split
  · exact ⟨_, _, rfl, rfl, rfl⟩
  · exact ⟨_, _, rfl, rfl, by simp [hscheme]⟩

theorem readRam_samePorts {s s' : State} (hsession : s'.session = s.session) (hscheme : s'.scheme = s.scheme)
    (hram : s'.ram = s.ram) (off : Nat) (a : Addr) : SamePorts (readRam off a s) (readRam off a s') := by
  unfold readRam
  rw [hsession, hram]
  split
  · exact ⟨_, _, rfl, rfl, rfl⟩
  · exact ⟨_, _, rfl, rfl, by simp [hscheme]⟩

section

variable {s s' : State} {r r' : Scheme3Regs} (hbank : s.bank = .scheme3 r) (hbank' : s'.bank = .scheme3 r')

include hbank hbank'

theorem gatedScheme3_samePorts (hfatal : s'.fatal = s.fatal) {k k' : Scheme3Regs → Result}
    (hk : SamePorts (k r) (k' r')) :
    SamePorts (unlessFatal s (onScheme3 s k)) (unlessFatal s' (onScheme3 s' k')) := by
  rw [onScheme3_of_bank hbank, onScheme3_of_bank hbank']
  cases hs : s.fatal with
  | none => rwa [unlessFatal_of_none hs, unlessFatal_of_none (hfatal.trans hs)]
  | some f =>
    rw [unlessFatal_of_some hs, unlessFatal_of_some (hfatal.trans hs)]
    exact ⟨_, _, rfl, rfl, rfl⟩

end

/-- The operation a read becomes in a Scheme3 session, by its address. -/
theorem exists_read_scheme3 (a : Addr) :
    ∃ i, i.wf = true ∧ encode i = .bus (transaction .scheme3 .read a 0) ∧
      (i = .s3RdRom0 a ∨ i = .s3RdRomx a ∨ i = .s3RdX a ∨ i = .fwd8 .scheme3 .read a 0 ∨
        i = .fwdC .scheme3 .read a 0) := by
  have hlt := a.isLt
  rcases (by omega : a.toNat ≤ 0x3FFF ∨ (0x4000 ≤ a.toNat ∧ a.toNat ≤ 0x7FFF) ∨
      (0x8000 ≤ a.toNat ∧ a.toNat ≤ 0x9FFF) ∨ (0xA000 ≤ a.toNat ∧ a.toNat ≤ 0xBFFF) ∨
      (0xC000 ≤ a.toNat ∧ a.toNat ≤ 0xFFFF)) with h | h | h | h | h
  · exact ⟨.s3RdRom0 a, inRange_iff.2 ⟨Nat.zero_le _, h⟩, rfl, by simp⟩
  · exact ⟨.s3RdRomx a, inRange_iff.2 h, rfl, by simp⟩
  · exact ⟨.fwd8 .scheme3 .read a 0, Bool.and_eq_true_iff.2 ⟨inRange_iff.2 h, rfl⟩, rfl, by simp⟩
  · exact ⟨.s3RdX a, inRange_iff.2 h, rfl, by simp⟩
  · exact ⟨.fwdC .scheme3 .read a 0, Bool.and_eq_true_iff.2 ⟨inRange_iff.2 h, rfl⟩, rfl, by simp⟩

/-- Settles O33: whichever row the read becomes, it looks at the image, the parameters, the gate, the
selection and the snapshot, and none of these differs. -/
theorem liveCountersNotReadable : Obligations.LiveCountersNotReadable := by
  intro s r live' sub' a hbank
  obtain ⟨i, hwf, hword, hi⟩ := exists_read_scheme3 a
  generalize hs' : ({ s with bank := .scheme3 { r with live := live', rtcSub := sub' } } : State) = s'
  have hbank' : s'.bank = .scheme3 { r with live := live', rtcSub := sub' } := by rw [← hs']
  have hfatal : s'.fatal = s.fatal := by rw [← hs']
  have hsession : s'.session = s.session := by rw [← hs']
  have hram : s'.ram = s.ram := by rw [← hs']
  have hcount : s'.oracleCount = s.oracleCount := by rw [← hs']
  have hscheme : s'.scheme = s.scheme := by rw [State.scheme, State.scheme, hbank', hbank]; rfl
  have hforward : SamePorts (unlessFatal s (.next (forward .read s)))
      (unlessFatal s' (.next (forward .read s'))) := by
    cases hs : s.fatal with
    | none =>
      rw [unlessFatal_of_none hs, unlessFatal_of_none (hfatal.trans hs)]
      exact ⟨_, _, rfl, rfl, by simp [forward, hcount]⟩
    | some f =>
      rw [unlessFatal_of_some hs, unlessFatal_of_some (hfatal.trans hs)]
      exact ⟨_, _, rfl, rfl, rfl⟩
  rw [transact_eq_exec hbank hword hwf, transact_eq_exec hbank' hword hwf]
  rcases hi with rfl | rfl | rfl | rfl | rfl
  · exact gatedScheme3_samePorts hbank hbank' hfatal (readRom_samePorts hsession hscheme _ a)
  · exact gatedScheme3_samePorts hbank hbank' hfatal (readRom_samePorts hsession hscheme _ a)
  · refine gatedScheme3_samePorts hbank hbank' hfatal ?_
    dsimp only
    split
    · split
      · exact readRam_samePorts hsession hscheme hram _ a
      · exact ⟨_, _, rfl, rfl, rfl⟩
      · exact ⟨_, _, rfl, rfl, by simp [hsession]⟩
    · exact ⟨_, _, rfl, rfl, by simp [hsession]⟩
  · exact hforward
  · exact hforward

end Sys2Proof.Machine
end

section
/-! PROOFS. What one operation changes and what it leaves unchanged (spec/10_state.md sections 3 to 9), fatal
errors (spec/60_exceptions.md), and progress. -/

namespace Sys2Proof.Machine

/-! ### The effect of a transaction -/

/-- What a control write does to the Scheme1 registers: it writes the field that is its own (R15 to R18). -/
inductive Scheme1Update : Instr → Scheme1Regs → Scheme1Regs → Prop where
  | ramEnable (a : Addr) (v : Byte) (r : Scheme1Regs) :
      Scheme1Update (.s1WrRamen a v) r { r with ramEnable := enableOf v }
  | romLo (a : Addr) (v : Byte) (r : Scheme1Regs) :
      Scheme1Update (.s1WrRomlo a v) r { r with romLo := lowBankOf v }
  | upper (a : Addr) (v : Byte) (r : Scheme1Regs) :
      Scheme1Update (.s1WrUpper a v) r (r.setUpper (upperOf v))
  | mode (a : Addr) (v : Byte) (r : Scheme1Regs) :
      Scheme1Update (.s1WrMode a v) r { r with mode := modeOf v }

/-- The error a transaction of state `s` may raise: `UnmappedAddress` under Scheme None only. -/
def RaisedError (s : State) (e : ErrorKind) : Prop :=
  e = .unmappedAddress ∧ s.scheme = .none ∨ e = .offsetOutOfRange

/-- Everything a transaction may do, with the operation that may do it: `BusEffect s i t` where `i` leads from
`s` to `t`. -/
inductive BusEffect (s : State) : Instr → State → Prop where
  | refused {i : Instr} (hfatal : s.fatal ≠ none) : BusEffect s i s.silent
  | answered {i : Instr} (o : BusOutcome) (hsafe : s.fatal = none) : BusEffect s i (s.answer o)
  | forwarded {i : Instr} (w : Dir) (hsafe : s.fatal = none) : BusEffect s i (forward w s)
  | raised {i : Instr} (w : BusWord) (e : ErrorKind) (hsafe : s.fatal = none) (hword : encode i = .bus w)
      (he : RaisedError s e) : BusEffect s i (fatalEntry e (fieldA w) (fieldD w) s)
  | stored1 (a : Addr) (v : Byte) (r : Scheme1Regs) (hsafe : s.fatal = none) (hbank : s.bank = .scheme1 r)
      (hopen : r.windowOpen = true) (hoff : ramOffset r.ramBank.toNat a < s.session.ramSize) :
      BusEffect s (.s1WrXram a v) ((s.storeRam (ramOffset r.ramBank.toNat a) v).answer .ack)
  | stored3 (a : Addr) (v : Byte) (r : Scheme3Regs) (n : BitVec 2) (hsafe : s.fatal = none)
      (hbank : s.bank = .scheme3 r) (henable : r.enable = true) (hselect : r.select = .ramBank n)
      (hoff : ramOffset n.toNat a < s.session.ramSize) :
      BusEffect s (.s3WrX a v) ((s.storeRam (ramOffset n.toNat a) v).answer .ack)
  | wrote1 {i : Instr} (r r' : Scheme1Regs) (hsafe : s.fatal = none) (hbank : s.bank = .scheme1 r)
      (hupdate : Scheme1Update i r r') : BusEffect s i ((s.setBank (.scheme1 r')).answer .ack)
  | wrote3 {i : Instr} (a : Addr) (v : Byte) (r r' : Scheme3Regs) (ports : Ports) (hsafe : s.fatal = none)
      (hbank : s.bank = .scheme3 r) (hwrite : encode i = .bus (transaction .scheme3 .write a v)) :
      BusEffect s i { s with bank := .scheme3 r', ports := ports }

section Effects

variable {s t : State} {i : Instr}

/-- A gated operation is refused, or has the effect of what stands behind the gate. -/
theorem busEffect_of_gated {k : Result} (h : unlessFatal s k = .next t)
    (hk : s.fatal = none → k = .next t → BusEffect s i t) : BusEffect s i t := by
  rcases unlessFatal_next h with ⟨f, hf, rfl⟩ | ⟨hsafe, h⟩
  · exact .refused (by simp [hf])
  · exact hk hsafe h

theorem readRom_busEffect {off : Nat} {a : Addr} {sch : Scheme} (hsafe : s.fatal = none)
    (hword : encode i = .bus (transaction sch .read a 0)) (h : readRom off a s = .next t) :
    BusEffect s i t := by
  rcases readRom_next h with ⟨-, rfl⟩ | ⟨-, rfl⟩
  · exact .answered _ hsafe
  · simpa using BusEffect.raised (i := i) _ _ hsafe hword (.inr rfl)

theorem readRam_busEffect {off : Nat} {a : Addr} {sch : Scheme} (hsafe : s.fatal = none)
    (hword : encode i = .bus (transaction sch .read a 0)) (h : readRam off a s = .next t) :
    BusEffect s i t := by
  rcases readRam_next h with ⟨-, rfl⟩ | ⟨-, rfl⟩
  · exact .answered _ hsafe
  · simpa using BusEffect.raised (i := i) _ _ hsafe hword (.inr rfl)

theorem writeRam_busEffect {off : Nat} {a : Addr} {v : Byte} {sch : Scheme} (hsafe : s.fatal = none)
    (hword : encode i = .bus (transaction sch .write a v)) (h : writeRam off a v s = .next t)
    (hstore : off < s.session.ramSize → BusEffect s i ((s.storeRam off v).answer .ack)) :
    BusEffect s i t := by
  rcases writeRam_next h with ⟨hoff, rfl⟩ | ⟨-, rfl⟩
  · exact hstore hoff
  · simpa using BusEffect.raised (i := i) _ _ hsafe hword (.inr rfl)

theorem writeScheme1_busEffect {f : Scheme1Regs → Scheme1Regs} (hf : ∀ r, Scheme1Update i r (f r))
    (h : writeScheme1 s f = .next t) : BusEffect s i t :=
  busEffect_of_gated h fun hsafe h => by
    obtain ⟨r, hr, h⟩ := onScheme1_next h
    cases h
    exact .wrote1 r _ hsafe hr (hf r)

theorem writeScheme3_busEffect {f : Scheme3Regs → Scheme3Regs} {a : Addr} {v : Byte}
    (hwrite : encode i = .bus (transaction .scheme3 .write a v)) (h : writeScheme3 s f = .next t) :
    BusEffect s i t :=
  busEffect_of_gated h fun hsafe h => by
    obtain ⟨r, hr, h⟩ := onScheme3_next h
    cases h
    exact .wrote3 a v r _ _ hsafe hr hwrite

theorem execS1WrXram_busEffect {a : Addr} {v : Byte} (h : execS1WrXram a v s = .next t) :
    BusEffect s (.s1WrXram a v) t :=
  busEffect_of_gated h fun hsafe h => by
    obtain ⟨r, hr, h⟩ := onScheme1_next h
    split at h
    · next hopen => exact writeRam_busEffect hsafe rfl h fun hoff => .stored1 a v r hsafe hr hopen hoff
    · cases h; exact .answered _ hsafe

theorem execS3WrX_busEffect {a : Addr} {v : Byte} (h : execS3WrX a v s = .next t) :
    BusEffect s (.s3WrX a v) t :=
  busEffect_of_gated h fun hsafe h => by
    obtain ⟨r, hr, h⟩ := onScheme3_next h
    split at h
    · next henable =>
      split at h
      · next n hselect =>
        exact writeRam_busEffect hsafe rfl h fun hoff => .stored3 a v r n hsafe hr henable hselect hoff
      · cases h; exact .wrote3 a v r _ _ hsafe hr rfl
      · cases h; exact .answered _ hsafe
    · cases h; exact .answered _ hsafe

theorem execS3WrSel_busEffect {a : Addr} {v : Byte} (h : execS3WrSel a v s = .next t) :
    BusEffect s (.s3WrSel a v) t :=
  busEffect_of_gated h fun hsafe h => by
    obtain ⟨r, hr, h⟩ := onScheme3_next h
    dsimp only at h
    split at h <;> cases h <;> exact .wrote3 a v r _ _ hsafe hr rfl

/-- A transaction that answers a next state has one of the effects. -/
theorem exec_busEffect (hbus : i.isBus = true) (h : exec i s = .next t) : BusEffect s i t := by
  cases i with
  | poll | cpu | disp | tmr | yield | stopped => cases hbus
  | nRdRom a =>
    exact busEffect_of_gated h fun hsafe h => readRom_busEffect hsafe rfl (onNone_next h).2
  | nWrRom a v =>
    exact busEffect_of_gated h fun hsafe h => by
      cases (onNone_next h).2; exact .answered _ hsafe
  | nRdX a =>
    exact busEffect_of_gated h fun hsafe h => by
      obtain ⟨hbank, h⟩ := onNone_next h
      cases h
      simpa using BusEffect.raised (i := .nRdX a) _ _ hsafe rfl (.inl ⟨rfl, State.scheme_eq_none.2 hbank⟩)
  | nWrX a v =>
    exact busEffect_of_gated h fun hsafe h => by
      obtain ⟨hbank, h⟩ := onNone_next h
      cases h
      simpa using BusEffect.raised (i := .nWrX a v) _ _ hsafe rfl (.inl ⟨rfl, State.scheme_eq_none.2 hbank⟩)
  | s1WrRamen a v => exact writeScheme1_busEffect (fun r => .ramEnable a v r) h
  | s1WrRomlo a v => exact writeScheme1_busEffect (fun r => .romLo a v r) h
  | s1WrUpper a v => exact writeScheme1_busEffect (fun r => .upper a v r) h
  | s1WrMode a v => exact writeScheme1_busEffect (fun r => .mode a v r) h
  | s1RdRom0 a | s1RdRomx a =>
    exact busEffect_of_gated h fun hsafe h => by
      obtain ⟨r, -, h⟩ := onScheme1_next h
      exact readRom_busEffect hsafe rfl h
  | s1RdXram a =>
    exact busEffect_of_gated h fun hsafe h => by
      obtain ⟨r, -, h⟩ := onScheme1_next h
      split at h
      · exact readRam_busEffect hsafe rfl h
      · cases h; exact .answered _ hsafe
  | s1WrXram a v => exact execS1WrXram_busEffect h
  | s3WrEn a v => exact writeScheme3_busEffect rfl h
  | s3WrRomb a v => exact writeScheme3_busEffect rfl h
  | s3WrSel a v => exact execS3WrSel_busEffect h
  | s3WrLatch a v => exact writeScheme3_busEffect rfl h
  | s3RdRom0 a | s3RdRomx a =>
    exact busEffect_of_gated h fun hsafe h => by
      obtain ⟨r, -, h⟩ := onScheme3_next h
      exact readRom_busEffect hsafe rfl h
  | s3RdX a =>
    exact busEffect_of_gated h fun hsafe h => by
      obtain ⟨r, -, h⟩ := onScheme3_next h
      split at h
      · split at h
        · exact readRam_busEffect hsafe rfl h
        all_goals cases h; exact .answered _ hsafe
      · cases h; exact .answered _ hsafe
  | s3WrX a v => exact execS3WrX_busEffect h
  | fwd8 sch w a v | fwdC sch w a v =>
    exact busEffect_of_gated h fun hsafe h => by cases h; exact .forwarded w hsafe

end Effects

/-! ### Fatal errors -/

theorem isBus_of_encode_bus {i : Instr} {w : BusWord} (h : encode i = .bus w) : i.isBus = true := by
  cases i with
  | poll | cpu | disp | tmr | yield | stopped => cases h
  | _ => rfl

/-- Settles O46: of the effects of a transaction only the fatal entry leaves a record where none was. -/
theorem fatalEntryIsPrecise : Obligations.FatalEntryIsPrecise := by
  intro i w s t f hword hsafe hexec hf
  cases exec_busEffect (isBus_of_encode_bus hword) hexec with
  | refused hfatal => exact absurd hsafe hfatal
  | raised u e _ hword' he =>
    cases hword.symm.trans hword'
    cases hf
    exact ⟨rfl, rfl, rfl, rfl, he⟩
  | answered | stored1 | stored3 | wrote1 | wrote3 => cases hsafe.symm.trans hf
  | forwarded d => cases (((forward_fatal d s).trans hsafe).symm.trans hf)

/-- A transaction is refused while a record is present (R183), whatever its row. -/
theorem exec_bus_of_fatal {i : Instr} {s : State} {f : ErrorRecord} (hbus : i.isBus = true)
    (hf : s.fatal = some f) : exec i s = .next s.silent := by
  cases i with
  | poll | cpu | disp | tmr | yield | stopped => cases hbus
  | _ => exact unlessFatal_of_some hf _

/-- In `STOPPED` any number of steps leaves the block as it is. -/
theorem runSteps_of_stopped (n : Nat) {s : State} (h : s.phase = .stopped) :
    ∃ t, runSteps n s = .next t ∧ s.sameBlock t ∧ (0 < n → t.ports = {}) := by
  induction n generalizing s with
  | zero => exact ⟨s, rfl, s.sameBlock_refl, fun h => absurd h (Nat.lt_irrefl 0)⟩
  | succ n ih =>
    obtain ⟨t, ht, hsame, hports⟩ := ih (s := { s with ports := {} }) h
    rw [runSteps_succ n (stoppedChangesNothing s h).2]
    refine ⟨t, ht, hsame, fun _ => ?_⟩
    cases n with
    | zero => cases ht; rfl
    | succ n => exact hports (Nat.succ_pos n)

/-- Settles O47: the gate refuses every transaction; and in a state of the invariant the record has stopped
the sequencer. -/
theorem fatalRefusesEverything : Obligations.FatalRefusesEverything := by
  intro s f hf
  exact ⟨fun i hbus => exec_bus_of_fatal hbus hf,
    fun hinv n => runSteps_of_stopped n (hinv.fatal_stops (by simp [hf]))⟩

/-- Settles O48: session start stops the sequencer of an unsupported scheme, and in `STOPPED` nothing
changes. -/
theorem unsupportedSchemeNeverRuns : Obligations.UnsupportedSchemeNeverRuns := by
  intro l s evs exits n hscheme hstart
  obtain ⟨-, rfl⟩ := sessionStart_eq_some.1 hstart
  have hphase : (startState l).phase = .stopped := by simp [startState, hscheme, startPhase]
  obtain ⟨t, ht, hsame, -⟩ :=
    runSteps_of_stopped n (s := { startState l with events := evs, exitLevels := exits }) hphase
  exact ⟨hphase, by simp [startState, hscheme, startError], t, ht, hsame⟩

/-! ### Reads -/

/-- The operation of a transaction word of a running session is a transaction with that word. -/
theorem encode_of_decode_transaction {sch : Scheme} {w : Dir} {a : Addr} {v : Byte} {i : Instr}
    (hv : forwardData w v = v) (h : decode (.bus (transaction sch w a v)) = .ok i) :
    encode i = .bus (transaction sch w a v) := by
  obtain ⟨-, r, hr, rfl⟩ := hits_of_decode_bus h
  obtain ⟨hS, hW⟩ := fields_of_hits hr
  rw [fieldS_transaction] at hS
  rw [fieldW_transaction] at hW
  have hscheme : (r.packed (transaction sch w a v)).1 = sch := by
    simpa using congrArg Scheme.ofTag hS.symm
  have hdir : (r.packed (transaction sch w a v)).2 = w := by
    simpa using congrArg Dir.ofBit hW.symm
  rw [encode_instr, hscheme, hdir, fieldA_transaction, fieldD_transaction, hv]

/-- A transaction that answers is an operation with the word of the transaction. -/
theorem transact_next {x : Access} {s t : State} (h : transact x s = .next t) :
    ∃ i, encode i = .bus (x.word s.scheme) ∧ exec i s = .next t := by
  unfold transact runWord at h
  split at h
  · next i hi =>
    refine ⟨i, ?_, h⟩
    cases x <;> exact encode_of_decode_transaction rfl hi
  · cases h

/-- Settles O50: a read has no effect but to be refused, answered or forwarded, or to raise an error. -/
theorem readsChangeNothing : Obligations.ReadsChangeNothing := by
  intro s t a h
  obtain ⟨i, hword, hexec⟩ := transact_next h
  have hread : ∀ {sch : Scheme} {b : Addr} {v : Byte}, encode i ≠ .bus (transaction sch .write b v) :=
    fun h => by
      have hW := congrArg fieldW (OpWord.bus.inj (hword.symm.trans h))
      simp [Access.word, Dir.bit] at hW
  cases exec_busEffect (isBus_of_encode_bus hword) hexec with
  | refused => exact .inl s.sameBlock_silent
  | answered o => exact .inl (s.sameBlock_answer o)
  | forwarded w => exact .inl (s.sameBlock_forward w)
  | raised w e _ hword' he =>
    cases hword.symm.trans hword'
    have hA : fieldA ((Access.read a).word s.scheme) = a := fieldA_transaction ..
    have hD : fieldD ((Access.read a).word s.scheme) = 0 := fieldD_transaction ..
    rw [hA, hD]
    rcases he with ⟨rfl, -⟩ | rfl
    exacts [.inr (.inl rfl), .inr (.inr rfl)]
  | stored1 | stored3 => exact absurd rfl hread
  | wrote1 r r' _ _ hupdate => cases hupdate <;> exact absurd rfl hread
  | wrote3 b v _ _ _ _ _ hwrite => exact absurd hwrite hread

/-! ### Frames -/

/-- Outside Scheme3 a phase leaves the bank group. -/
theorem exec_phase_bank {i : Instr} {s t : State} (hphase : i.isBus = false) (h : exec i s = .next t)
    (hbank : ∀ r, s.bank ≠ .scheme3 r) : t.bank = s.bank := by
  obtain ⟨-, -, -, h | h⟩ := exec_phase_frame hphase h
  · exact h
  · exact h.trans (State.rtcTick_bank_of_not_scheme3 hbank)

/-- Settles O51: of the effects of a transaction only the two stores change RAM, each at the offset of its own
window; a phase leaves RAM. -/
theorem ramChangesOnlyAtTranslatedOffset : Obligations.RamChangesOnlyAtTranslatedOffset := by
  intro i s t x hwf hexec hne
  have hstore : ∀ {off : Nat} {v : Byte}, (s.ram.write off v).read x ≠ s.ram.read x →
      off = x ∧ (s.ram.write off v).read x = v := fun {off v} h => by
    rw [Memory.read_write hwf] at h ⊢
    by_cases hoff : off = x
    · exact ⟨hoff, if_pos hoff⟩
    · rw [if_neg hoff] at h
      exact absurd rfl h
  cases hbus : i.isBus with
  | false =>
    obtain ⟨-, hram, -⟩ := exec_phase_frame hbus hexec
    exact absurd (congrArg (Memory.read · x) hram) hne
  | true =>
    cases exec_busEffect hbus hexec with
    | refused | answered | raised | wrote1 | wrote3 => exact absurd rfl hne
    | forwarded w => exact absurd (congrArg (Memory.read · x) (forward_ram w s)) hne
    | stored1 a v r _ hbank hopen hoff =>
      obtain ⟨rfl, hread⟩ := hstore hne
      obtain ⟨henable, hmode⟩ := r.windowOpen_iff.1 hopen
      exact ⟨a, v, hread, hoff, .inl ⟨rfl, r, hbank, henable, hmode, ramOffset_eq _ a⟩⟩
    | stored3 a v r n _ hbank henable hselect hoff =>
      obtain ⟨rfl, hread⟩ := hstore hne
      exact ⟨a, v, hread, hoff, .inr ⟨rfl, r, n, hbank, henable, hselect, ramOffset_eq _ a⟩⟩

/-- A Scheme1 operation keeps the registers or writes the field that is its own. -/
theorem exec_scheme1Update {i : Instr} {s t : State} {r : Scheme1Regs} (hbank : s.bank = .scheme1 r)
    (hexec : exec i s = .next t) : ∃ r', t.bank = .scheme1 r' ∧ (r' = r ∨ Scheme1Update i r r') := by
  cases hbus : i.isBus with
  | false => exact ⟨r, (exec_phase_bank hbus hexec (by simp [hbank])).trans hbank, .inl rfl⟩
  | true =>
    cases exec_busEffect hbus hexec with
    | refused | answered | raised | stored1 | stored3 => exact ⟨r, hbank, .inl rfl⟩
    | forwarded w => exact ⟨r, (forward_bank w s).trans hbank, .inl rfl⟩
    | wrote1 q r' _ hq hupdate =>
      cases hbank.symm.trans hq
      exact ⟨r', rfl, .inr hupdate⟩
    | wrote3 _ _ _ _ _ _ hq => cases hbank.symm.trans hq

/-- Settles O52: by the one field that the operation's update writes. -/
theorem scheme1RegistersWrittenByTheirOperation : Obligations.Scheme1RegistersWrittenByTheirOperation := by
  intro i s t r hbank hexec
  obtain ⟨r', hbank', rfl | hupdate⟩ := exec_scheme1Update hbank hexec
  · exact ⟨r', hbank', by simp⟩
  · refine ⟨r', hbank', ?_⟩
    cases hupdate with
    | ramEnable | romLo | mode => simp
    | upper a v =>
      unfold Scheme1Regs.setUpper
      cases r.mode <;> simp

/-- A latch write changes the latch and the snapshot alone. -/
theorem Scheme3Regs.latchWrite_eq (r : Scheme3Regs) (v : Byte) :
    r.latchWrite v = { r with latch := (r.latchWrite v).latch, snap := (r.latchWrite v).snap } := by
  unfold Scheme3Regs.latchWrite
  split
  · rfl
  · split <;> rfl

/-- A tick changes the live counters and the prescaler alone. -/
theorem rtcTick_eq (n : Nat) (r : Scheme3Regs) :
    rtcTick n r = { r with live := (rtcTick n r).live, rtcSub := (rtcTick n r).rtcSub } := by
  unfold rtcTick
  split
  · rfl
  · split <;> rfl

/-- Settles O53: by the one field that the operation's update writes. -/
theorem scheme3RegistersWrittenByTheirOperation : Obligations.Scheme3RegistersWrittenByTheirOperation := by
  intro i s t r hbank hexec
  obtain ⟨r', hbank', hupdate⟩ := exec_scheme3Update hbank hexec
  refine ⟨r', hbank', ?_⟩
  have hsnap := fun h => (hupdate.latchCopy_of_snap_ne h).2
  cases hupdate with
  | keep | enable | romBank | select => simp
  | latch a v =>
    rw [r.latchWrite_eq]
    exact ⟨by simp, by simp, by simp, by simp, hsnap, by simp, by simp⟩
  | live a v x _ henable hselect => simp [henable, hselect]
  | tick => rw [rtcTick_eq]; simp

/-- A transaction leaves the counter and the inputs, and moves the phase only with the first record. -/
theorem exec_bus_scheduler {i : Instr} {s t : State} (hbus : i.isBus = true) (h : exec i s = .next t) :
    t.cycleCounter = s.cycleCounter ∧ t.events = s.events ∧ t.exitLevels = s.exitLevels ∧
      (t.phase = s.phase ∧ t.fatal = s.fatal ∨ t.phase = .stopped ∧ s.fatal = none ∧ t.fatal ≠ none) := by
  cases exec_busEffect hbus h with
  | refused | answered | stored1 | stored3 | wrote1 | wrote3 => exact ⟨rfl, rfl, rfl, .inl ⟨rfl, rfl⟩⟩
  | forwarded => simp
  | raised w e hsafe => exact ⟨rfl, rfl, rfl, .inr ⟨rfl, hsafe, by simp⟩⟩

/-- A phase takes no event, counts in `POLL` and `TMR` only, and samples `exit_request` in `YIELD` only. -/
theorem exec_phase_scheduler {i : Instr} {s t : State} (hphase : i.isBus = false) (h : exec i s = .next t) :
    (t.cycleCounter = s.cycleCounter ∨ i = .poll ∨ i = .tmr) ∧ t.events = s.events ∧
      (t.exitLevels = s.exitLevels ∨ i = .yield) := by
  rcases exec_phase_cases hphase h with ⟨rfl, -, ⟨-, rfl⟩ | ⟨-, rfl⟩⟩ | ⟨rfl, -, rfl⟩ | ⟨rfl, -, rfl⟩ |
    ⟨rfl, -, ⟨-, rfl⟩ | ⟨-, rfl⟩⟩ | ⟨rfl, -, ⟨-, rfl⟩ | ⟨-, rfl⟩⟩ | ⟨rfl, -, rfl⟩
  case inr.inr.inr.inl.inr =>
    exact ⟨.inr (.inr rfl), s.rtcTick_events, .inl s.rtcTick_exitLevels⟩
  all_goals simp

/-- Settles O54: from the frame of a transaction and the frame of a phase. -/
theorem schedulerAndErrorFrame : Obligations.SchedulerAndErrorFrame := by
  intro i s t hexec
  cases hbus : i.isBus with
  | false =>
    obtain ⟨-, hram, hfatal, -⟩ := exec_phase_frame hbus hexec
    obtain ⟨hcounter, hevents, hexit⟩ := exec_phase_scheduler hbus hexec
    exact ⟨fun h => hcounter.resolve_left h, fun h => (nomatch h), fun _ => ⟨hram, hfatal⟩, fun _ => hfatal,
      fun h => hexit.resolve_left h, hevents⟩
  | true =>
    obtain ⟨hcounter, hevents, hexit, hphase⟩ := exec_bus_scheduler hbus hexec
    refine ⟨fun h => absurd hcounter h, fun _ h => ?_, fun h => (nomatch h), fun h => ?_,
      fun h => absurd hexit h, hevents⟩
    · exact hphase.resolve_left fun hkeep => h hkeep.1
    · rcases hphase with ⟨-, hkeep⟩ | ⟨-, hsafe, -⟩
      · exact hkeep
      · exact absurd hsafe h

/-! ### A step of a stage -/

/-- What the running core does next: its call returns, or it issues a transaction. -/
theorem events_cases (evs : List CoreEvent) :
    (evs = [] ∨ ∃ rest, evs = .done :: rest) ∨ ∃ x rest, evs = Access.event x :: rest := by
  match evs with
  | [] => exact .inl (.inl rfl)
  | .done :: rest => exact .inl (.inr ⟨rest, rfl⟩)
  | .read a :: rest => exact .inr ⟨.read a, rest, rfl⟩
  | .write a v :: rest => exact .inr ⟨.write a v, rest, rfl⟩

section Stage

variable {s : State} (hst : s.phase.isStage = true)

include hst

/-- A stage whose core issues a transaction resolves it in the step. -/
theorem step_of_transaction {x : Access} {rest : List CoreEvent} (h : s.events = x.event :: rest) :
    step s = transact x { s with events := rest } := by
  rw [step, fetchWord_of_stage hst, consume_of_stage hst, h]
  cases x <;> rfl

/-- A stage whose call returns runs the phase. -/
theorem step_of_return (h : s.events = [] ∨ ∃ rest, s.events = .done :: rest) :
    step s = exec s.phase.instr (consume s) := by
  refine stepRunsFetchedInstr s _ ?_
  rw [fetchWord_of_stage hst]
  rcases h with h | ⟨rest, h⟩ <;> rw [h] <;> exact decode_phase_code _

end Stage

/-- A phase's word is fetched for the phase that the state is in. -/
theorem code_of_fetch_phase {s : State} {c : PhaseCode} (h : fetchWord s = .phase c) : c = s.phase.code := by
  unfold fetchWord stageWord at h
  split at h
  · split at h <;> cases h <;> rfl
  · cases h; rfl

theorem isBus_of_decode_bus {w : BusWord} {i : Instr} (h : decode (.bus w) = .ok i) : i.isBus = true := by
  obtain ⟨-, r, -, rfl⟩ := hits_of_decode_bus h
  cases r <;> rfl

/-- Settles O45: a transaction moves the phase only with a record and raises no strobe; a phase goes where its
own rule says. -/
theorem phasesFollowTheLoop : Obligations.PhasesFollowTheLoop := by
  intro s t hsafe hstep
  obtain ⟨i, hdecode, hexec⟩ := step_next hstep
  refine ⟨fun w hw => ?_, fun c hc => ?_⟩
  · rw [hw] at hdecode
    have hbus := isBus_of_decode_bus hdecode
    obtain ⟨-, -, -, hphase⟩ := exec_bus_scheduler hbus hexec
    rw [consume_phase] at hphase
    exact ⟨exec_bus_raised hbus hexec, hphase.imp And.left fun h => ⟨h.1, h.2.2⟩⟩
  · rw [hc, code_of_fetch_phase hc, decode_phase_code] at hdecode
    cases hdecode
    have hphase := consume_phase s
    have hsafe' : (consume s).fatal = none := (consume_fatal s).trans hsafe
    cases hp : s.phase <;> rw [hp] at hexec hphase
    case poll => cases (pollStartsFrame _ hsafe' hphase).symm.trans hexec; exact ⟨rfl, rfl⟩
    case cpu =>
      cases (exec_cpu_of_phase hphase).symm.trans hexec
      simp [State.stageNext_eq, hsafe]
    case disp =>
      cases (exec_disp_of_phase hphase).symm.trans hexec
      simp [State.stageNext_eq, hsafe]
    case tmr =>
      cases (exec_tmr_of_safe hphase hsafe').symm.trans hexec
      rw [State.tickEnd_eq]
      by_cases hlast : (consume s).cycleCounter + 1 = (consume s).session.mainCycles
      · exact .inr ⟨if_pos hlast, if_pos hlast⟩
      · exact .inl ⟨if_neg hlast, if_neg hlast⟩
    case yield =>
      cases (exec_yield_of_safe hphase hsafe').symm.trans hexec
      dsimp only
      split <;> simp
    case stopped => cases (stoppedChangesNothing _ hphase).1.symm.trans hexec; exact ⟨hphase, rfl⟩

/-- Settles O37: with no event left every step is a phase, and the one that could write the registers is a tick
of a halted clock. -/
theorem haltedClockStands : Obligations.HaltedClockStands := by
  intro n s t r hbank hhalt hevents hrun
  have hkeep : t.bank = .scheme3 r ∧ t.events = [] :=
    runSteps_keeps (P := fun u => u.bank = .scheme3 r ∧ u.events = []) (fun u v ⟨hu, he⟩ hstep => by
      obtain ⟨i, hdecode, hexec⟩ := step_next hstep
      have hconsumed : (consume u).events = [] := by
        unfold consume
        split <;> simp [he]
      have hphase : i.isBus = false := by
        by_contra hbus
        rw [Bool.not_eq_false] at hbus
        have hst := isStage_of_fetch_bus hdecode hbus
        rw [fetchWord_of_stage hst, he] at hdecode
        cases (decode_phase_code u.phase).symm.trans hdecode
        rw [Phase.isBus_instr] at hbus
        cases hbus
      obtain ⟨-, hevents', -⟩ := exec_phase_scheduler hphase hexec
      refine ⟨?_, hevents'.trans hconsumed⟩
      rcases exec_phase_scheme3 ((consume_bank u).trans hu) hphase hexec with h | ⟨-, h⟩
      · exact h
      · rw [h, rtcTick_of_halt _ hhalt]) ⟨hbank, hevents⟩ hrun
  exact hkeep.1

/-! ### Progress -/

/-- The result is a next state. -/
def Answers (k : Result) : Prop := ∃ t, k = .next t

section Progress

variable {s : State}

theorem answers_unlessFatal {k : Result} (h : Answers k) : Answers (unlessFatal s k) := by
  unfold unlessFatal
  split
  · exact ⟨_, rfl⟩
  · exact h

theorem answers_onNone {k : Result} (hs : Scheme.none = s.scheme) (h : Answers k) : Answers (onNone s k) := by
  rwa [onNone_of_bank (State.scheme_eq_none.1 hs.symm)]

theorem answers_onScheme1 {k : Scheme1Regs → Result} (hs : Scheme.scheme1 = s.scheme)
    (h : ∀ r, Answers (k r)) : Answers (onScheme1 s k) := by
  obtain ⟨r, hr⟩ := State.scheme_eq_scheme1.1 hs.symm
  rw [onScheme1_of_bank hr]
  exact h r

theorem answers_onScheme3 {k : Scheme3Regs → Result} (hs : Scheme.scheme3 = s.scheme)
    (h : ∀ r, Answers (k r)) : Answers (onScheme3 s k) := by
  obtain ⟨r, hr⟩ := State.scheme_eq_scheme3.1 hs.symm
  rw [onScheme3_of_bank hr]
  exact h r

theorem answers_readRom (off : Nat) (a : Addr) : Answers (readRom off a s) := by
  unfold readRom
  split <;> exact ⟨_, rfl⟩

theorem answers_readRam (off : Nat) (a : Addr) : Answers (readRam off a s) := by
  unfold readRam
  split <;> exact ⟨_, rfl⟩

theorem answers_writeRam (off : Nat) (a : Addr) (v : Byte) : Answers (writeRam off a v s) := by
  unfold writeRam
  split <;> exact ⟨_, rfl⟩

/-- A row run under its own scheme answers. -/
theorem answers_exec_instr {r : BusRow} {w : BusWord} (hs : (r.packed w).1 = s.scheme) :
    Answers (exec (r.instr w) s) := by
  cases r with
  | nRdRom => exact answers_unlessFatal (answers_onNone hs (answers_readRom _ _))
  | nWrRom | nRdX | nWrX => exact answers_unlessFatal (answers_onNone hs ⟨_, rfl⟩)
  | s1WrRamen | s1WrRomlo | s1WrUpper | s1WrMode =>
    exact answers_unlessFatal (answers_onScheme1 hs fun _ => ⟨_, rfl⟩)
  | s1RdRom0 | s1RdRomx => exact answers_unlessFatal (answers_onScheme1 hs fun _ => answers_readRom _ _)
  | s1RdXram =>
    refine answers_unlessFatal (answers_onScheme1 hs fun r => ?_)
    split
    exacts [answers_readRam _ _, ⟨_, rfl⟩]
  | s1WrXram =>
    refine answers_unlessFatal (answers_onScheme1 hs fun r => ?_)
    split
    exacts [answers_writeRam _ _ _, ⟨_, rfl⟩]
  | s3WrEn | s3WrRomb | s3WrLatch => exact answers_unlessFatal (answers_onScheme3 hs fun _ => ⟨_, rfl⟩)
  | s3WrSel =>
    refine answers_unlessFatal (answers_onScheme3 hs fun r => ?_)
    dsimp only
    split <;> exact ⟨_, rfl⟩
  | s3RdRom0 | s3RdRomx => exact answers_unlessFatal (answers_onScheme3 hs fun _ => answers_readRom _ _)
  | s3RdX =>
    refine answers_unlessFatal (answers_onScheme3 hs fun r => ?_)
    split
    · split
      exacts [answers_readRam _ _, ⟨_, rfl⟩, ⟨_, rfl⟩]
    · exact ⟨_, rfl⟩
  | s3WrX =>
    refine answers_unlessFatal (answers_onScheme3 hs fun r => ?_)
    split
    · split
      exacts [answers_writeRam _ _ _, ⟨_, rfl⟩, ⟨_, rfl⟩]
    · exact ⟨_, rfl⟩
  | fwd8 | fwdC => exact answers_unlessFatal ⟨_, rfl⟩

/-- A transaction of a session of a supported scheme answers. -/
theorem answers_transact (x : Access) (hs : s.scheme ≠ .unsupported) : Answers (transact x s) := by
  obtain ⟨w, a, v, hword⟩ : ∃ w a v, x.word s.scheme = transaction s.scheme w a v := by
    cases x <;> exact ⟨_, _, _, rfl⟩
  have hlive : fieldS (transaction s.scheme w a v) ≠ 0b10 := by
    rwa [fieldS_transaction, ne_eq, Scheme.tag_eq_reserved]
  obtain ⟨r, -, hunique⟩ := exists_rowOf_unique hlive
  have hr := (hunique r).2 rfl
  rw [transact, runWord, hword, decode_bus_of_hits hlive hr]
  refine answers_exec_instr ?_
  have hS := (fields_of_hits hr).1
  rw [fieldS_transaction] at hS
  simpa using congrArg Scheme.ofTag hS.symm

end Progress

/-- Settles O49: a transaction of a stage answers because the scheme is a supported one, and a phase answers in
its own place. -/
theorem everyLegalStateHasNext : Obligations.EveryLegalStateHasNext := by
  intro s hinv
  have hexec : ∀ u : State, u.phase = s.phase → (s.phase ≠ .stopped → u.fatal = none) →
      Answers (exec s.phase.instr u) := fun u hu hsafe => by
    cases hp : s.phase <;> rw [hp] at hu hsafe
    case poll => exact ⟨_, pollStartsFrame u (hsafe (by decide)) hu⟩
    case cpu => exact ⟨_, exec_cpu_of_phase hu⟩
    case disp => exact ⟨_, exec_disp_of_phase hu⟩
    case tmr => exact ⟨_, exec_tmr_of_safe hu (hsafe (by decide))⟩
    case yield => exact ⟨_, exec_yield_of_safe hu (hsafe (by decide))⟩
    case stopped => exact ⟨_, (stoppedChangesNothing u hu).1⟩
  cases hst : s.phase.isStage with
  | false =>
    rw [step_of_not_stage hst]
    exact hexec s rfl hinv.safe
  | true =>
    have hsafe : s.fatal = none := hinv.safe fun h => by rw [h] at hst; cases hst
    rcases events_cases s.events with h | ⟨x, rest, h⟩
    · rw [step_of_return hst h]
      exact hexec _ (consume_phase s) fun _ => (consume_fatal s).trans hsafe
    · rw [step_of_transaction hst h]
      exact answers_transact x fun hs => hinv.unsupported_fatal hs hsafe

end Sys2Proof.Machine
end

section
/-! PROOFS. The real-time clock (spec/43_rtc.md): the second advance counts one second, and the prescaler makes
one second of `RTC_TICKS_PER_SECOND` ticks. -/

namespace Sys2Proof.Machine

/-! ### Bytes -/

theorem byte_succ_eq_60 : ∀ b : Byte, b + 1 = 60 ↔ b.toNat = 59 := by decide

theorem byte_succ_eq_24 : ∀ b : Byte, b + 1 = 24 ↔ b.toNat = 23 := by decide

theorem byte_succ_eq_ofNat (b : Byte) : b + 1 = BitVec.ofNat 8 ((b.toNat + 1) % 256) := by
  apply BitVec.eq_of_toNat_eq
  simp

/-! ### The flags byte (R25, R145) -/

theorem setDayBit8_bit0 : ∀ (b : Byte) (c : Bool),
    ((setDayBit8 b c).extractLsb 0 0).toNat = if c then 1 else 0 := by decide

theorem setDayBit8_kept : ∀ (b : Byte) (c : Bool) (k : Fin 8), 1 ≤ k.val →
    (setDayBit8 b c).getLsbD k = b.getLsbD k := by decide

theorem setCarry_bits : ∀ (b : Byte) (k : Fin 8),
    (setCarry b).getLsbD k = (b.getLsbD k || decide (k.val = 7)) := by decide

/-! ### The day step -/

theorem RtcRegs.day_lt (x : RtcRegs) : x.day < 512 := by
  have h0 := (x.dayHigh.extractLsb 0 0).isLt
  have h1 := x.dayLow.isLt
  unfold RtcRegs.day
  omega

/-- The day step leaves the time of day. -/
theorem advanceDay_timeOfDay (x : RtcRegs) :
    (advanceDay x).seconds = x.seconds ∧ (advanceDay x).minutes = x.minutes ∧
      (advanceDay x).hours = x.hours := by
  unfold advanceDay
  dsimp only
  split <;> exact ⟨rfl, rfl, rfl⟩

theorem advanceDay_day (x : RtcRegs) : (advanceDay x).day = (x.day + 1) % 512 := by
  have hlt := x.day_lt
  unfold advanceDay
  dsimp only
  split
  · next hlast =>
    rw [hlast]
    simp only [RtcRegs.day, setDayBit8_bit0]
    rfl
  · next hlast =>
    rw [RtcRegs.day]
    simp only [setDayBit8_bit0, BitVec.toNat_ofNat, decide_eq_true_eq]
    split <;> omega

/-- The flags above the day bit: the carry is set on the overflow, the rest is kept. -/
theorem advanceDay_flags (x : RtcRegs) (k : Fin 8) (hk : 1 ≤ k.val) :
    (advanceDay x).dayHigh.getLsbD k = (x.dayHigh.getLsbD k || decide (k.val = 7 ∧ x.day + 1 = 512)) := by
  unfold advanceDay
  dsimp only
  split
  · next hlast =>
    rw [setDayBit8_kept _ _ k hk, setCarry_bits]
    simp only [hlast, and_true]
  · next hlast =>
    rw [setDayBit8_kept _ _ k hk]
    simp only [hlast, and_false, decide_false, Bool.or_false]

theorem advanceDay_carry (x : RtcRegs) :
    (advanceDay x).carry = (x.carry || decide (x.day + 1 = 512)) := by
  have h := advanceDay_flags x 7 (by decide)
  rw [show ((7 : Fin 8) : Nat) = 7 from rfl] at h
  simp only [true_and] at h
  exact h

theorem advanceDay_kept (x : RtcRegs) (k : Nat) (hk : 1 ≤ k) (hk' : k ≤ 6) :
    (advanceDay x).dayHigh.getLsbD k = x.dayHigh.getLsbD k := by
  have hne : k ≠ 7 := by omega
  have h := advanceDay_flags x ⟨k, by omega⟩ hk
  simp only [hne, false_and, decide_false, Bool.or_false] at h
  exact h

/-! ### The second advance -/

section

variable {x : RtcRegs}

theorem secondAdvance_of_second (h : x.seconds.toNat ≠ 59) :
    secondAdvance x = { x with seconds := x.seconds + 1 } :=
  if_neg (mt (byte_succ_eq_60 _).1 h)

theorem secondAdvance_of_minute (hs : x.seconds.toNat = 59) (hm : x.minutes.toNat ≠ 59) :
    secondAdvance x = { x with seconds := 0, minutes := x.minutes + 1 } :=
  (if_pos ((byte_succ_eq_60 _).2 hs)).trans (if_neg (mt (byte_succ_eq_60 _).1 hm))

theorem secondAdvance_of_hour (hs : x.seconds.toNat = 59) (hm : x.minutes.toNat = 59)
    (hh : x.hours.toNat ≠ 23) :
    secondAdvance x = { x with seconds := 0, minutes := 0, hours := x.hours + 1 } :=
  (if_pos ((byte_succ_eq_60 _).2 hs)).trans
    ((if_pos ((byte_succ_eq_60 _).2 hm)).trans (if_neg (mt (byte_succ_eq_24 _).1 hh)))

theorem secondAdvance_of_day (hs : x.seconds.toNat = 59) (hm : x.minutes.toNat = 59)
    (hh : x.hours.toNat = 23) :
    secondAdvance x = advanceDay { x with seconds := 0, minutes := 0, hours := 0 } :=
  (if_pos ((byte_succ_eq_60 _).2 hs)).trans
    ((if_pos ((byte_succ_eq_60 _).2 hm)).trans (if_pos ((byte_succ_eq_24 _).2 hh)))

/-- What one second makes of a clock in normal use. -/
structure CountsOneSecond (x y : RtcRegs) : Prop where
  normal : y.normal
  time : y.time = (x.time + 1) % 44236800
  carry : y.carry = (x.carry || decide (x.time + 1 = 44236800))
  flags : ∀ k, 1 ≤ k → k ≤ 6 → y.dayHigh.getLsbD k = x.dayHigh.getLsbD k

/-- Without a day step the flags byte is kept, and no overflow is near. -/
theorem countsOneSecond_of_same_day {y : RtcRegs} (hnormal : y.normal) (hhigh : y.dayHigh = x.dayHigh)
    (htime : y.time = x.time + 1) : CountsOneSecond x y := by
  obtain ⟨hs, hm, hh⟩ := id hnormal
  have hlt : y.time < 44236800 := by
    have := y.day_lt
    unfold RtcRegs.time
    omega
  refine ⟨hnormal, by omega, ?_, fun k _ _ => by rw [hhigh]⟩
  rw [RtcRegs.carry, RtcRegs.carry, hhigh, decide_eq_false (by omega), Bool.or_false]

/-- From the last second of a day the clock goes to the first one of the next day. -/
theorem countsOneSecond_of_day (hs : x.seconds.toNat = 59) (hm : x.minutes.toNat = 59)
    (hh : x.hours.toNat = 23) :
    CountsOneSecond x (advanceDay { x with seconds := 0, minutes := 0, hours := 0 }) := by
  generalize hz : ({ x with seconds := 0, minutes := 0, hours := 0 } : RtcRegs) = z
  obtain ⟨hs', hm', hh', hday, hcarry, hflags⟩ : z.seconds.toNat = 0 ∧ z.minutes.toNat = 0 ∧
      z.hours.toNat = 0 ∧ z.day = x.day ∧ z.carry = x.carry ∧ z.dayHigh = x.dayHigh := by
    subst hz; exact ⟨rfl, rfl, rfl, rfl, rfl, rfl⟩
  obtain ⟨hs'', hm'', hh''⟩ := advanceDay_timeOfDay z
  have hlt := x.day_lt
  have htime : x.time + 1 = (x.day + 1) * 86400 := by unfold RtcRegs.time; omega
  have hnormal : (advanceDay z).normal := by
    rw [RtcRegs.normal, hs'', hm'', hh'', hs', hm', hh']
    decide
  refine ⟨hnormal, ?_, ?_, fun k hk hk' => ?_⟩
  · rw [htime, RtcRegs.time, hs'', hm'', hh'', hs', hm', hh', advanceDay_day, hday]
    omega
  · have hiff : x.time + 1 = 44236800 ↔ x.day + 1 = 512 := by omega
    rw [advanceDay_carry, hcarry, hday]
    simp only [hiff]
  · rw [advanceDay_kept z k hk hk', hflags]

theorem byte_succ_toNat {b : Byte} (h : b.toNat < 60) : (b + 1).toNat = b.toNat + 1 := by
  rw [byte_succ_eq_ofNat, BitVec.toNat_ofNat]
  omega

theorem secondAdvance_counts (h : x.normal) : CountsOneSecond x (secondAdvance x) := by
  obtain ⟨hs, hm, hh⟩ := h
  have hzero : (0 : Byte).toNat = 0 := rfl
  by_cases hs' : x.seconds.toNat = 59
  · by_cases hm' : x.minutes.toNat = 59
    · by_cases hh' : x.hours.toNat = 23
      · rw [secondAdvance_of_day hs' hm' hh']
        exact countsOneSecond_of_day hs' hm' hh'
      · rw [secondAdvance_of_hour hs' hm' hh']
        have hb := byte_succ_toNat (b := x.hours) (by omega)
        refine countsOneSecond_of_same_day ⟨by simp, by simp, by simp only [hb]; omega⟩ rfl ?_
        simp only [RtcRegs.time, RtcRegs.day, hb, hs', hm', hzero]
        omega
    · rw [secondAdvance_of_minute hs' hm']
      have hb := byte_succ_toNat hm
      refine countsOneSecond_of_same_day ⟨by simp, by simp only [hb]; omega, hh⟩ rfl ?_
      simp only [RtcRegs.time, RtcRegs.day, hb, hs', hzero]
      omega
  · rw [secondAdvance_of_second hs']
    have hb := byte_succ_toNat hs
    refine countsOneSecond_of_same_day ⟨by simp only [hb]; omega, hm, hh⟩ rfl ?_
    simp only [RtcRegs.time, RtcRegs.day, hb]
    omega

end

/-- Settles O35: by which of the registers carry. -/
theorem secondAdvanceCountsOneSecond : Obligations.SecondAdvanceCountsOneSecond := by
  intro x
  refine ⟨fun h => ?_, fun hs => ?_, fun hs hm => ?_, fun hs hm hh => ?_⟩
  · obtain ⟨hnormal, htime, hcarry, hflags⟩ := secondAdvance_counts h
    exact ⟨hnormal, htime, hcarry, hflags⟩
  · rw [secondAdvance_of_second hs, byte_succ_eq_ofNat]
  · rw [secondAdvance_of_minute hs hm, byte_succ_eq_ofNat]
  · rw [secondAdvance_of_hour hs hm hh, byte_succ_eq_ofNat]

/-! ### The prescaler -/

section

variable {p : Nat} {r : Scheme3Regs} (hrun : r.live.dayHigh.getLsbD 6 = false) (hsub : r.rtcSub = 0)

include hrun hsub

/-- Within a second the prescaler counts the ticks. -/
theorem rtcTick_iterate_within (k : Nat) (hk : k < p) : (rtcTick p)^[k] r = { r with rtcSub := k } := by
  induction k with
  | zero => rw [Function.iterate_zero, id, ← hsub]
  | succ k ih =>
    rw [Function.iterate_succ_apply', ih (by omega)]
    exact rtcTick_of_not_last hrun (by dsimp only; omega)

/-- `RTC_TICKS_PER_SECOND` ticks are one second. -/
theorem rtcTick_iterate_second (hp : 1 ≤ p) :
    (rtcTick p)^[p] r = { r with live := secondAdvance r.live } := by
  obtain ⟨q, rfl⟩ : ∃ q, p = q + 1 := ⟨p - 1, by omega⟩
  rw [Function.iterate_succ_apply', rtcTick_iterate_within hrun hsub q (Nat.lt_succ_self q)]
  refine (rtcTick_of_last (r := { r with rtcSub := q }) hrun rfl).trans ?_
  simp only [hsub]

end

/-- The clock after `n` seconds from reset. -/
def secondsFromReset (n : Nat) : RtcRegs := secondAdvance^[n] RtcRegs.reset

theorem secondsFromReset_succ (n : Nat) :
    secondsFromReset (n + 1) = secondAdvance (secondsFromReset n) :=
  Function.iterate_succ_apply' ..

/-- Below 512 days the clock shows the seconds elapsed, without carry and running. -/
theorem secondsFromReset_time (n : Nat) (hn : n < 44236800) :
    (secondsFromReset n).normal ∧ (secondsFromReset n).time = n ∧ (secondsFromReset n).carry = false ∧
      (secondsFromReset n).dayHigh.getLsbD 6 = false := by
  induction n with
  | zero => decide
  | succ n ih =>
    obtain ⟨hnormal, htime, hcarry, hhalt⟩ := ih (by omega)
    obtain ⟨hnormal', htime', hcarry', hflags⟩ := secondAdvance_counts hnormal
    rw [secondsFromReset_succ]
    refine ⟨hnormal', by rw [htime', htime]; omega, ?_, by rw [hflags 6 (by decide) (by decide), hhalt]⟩
    rw [hcarry', hcarry, htime, decide_eq_false (by omega), Bool.or_false]

/-- At 512 days the clock shows 0 with the carry set. -/
theorem secondsFromReset_overflow {n : Nat} (hn : 44236800 = n) :
    (secondsFromReset n).day = 0 ∧ (secondsFromReset n).time = 0 ∧ (secondsFromReset n).carry = true := by
  obtain ⟨m, rfl⟩ : ∃ m, n = m + 1 := ⟨n - 1, by omega⟩
  obtain ⟨hnormal, htime, -, -⟩ := secondsFromReset_time m (by omega)
  obtain ⟨-, htime', hcarry, -⟩ := secondAdvance_counts hnormal
  rw [← secondsFromReset_succ, htime] at htime' hcarry
  have hzero : (secondsFromReset (m + 1)).time = 0 := by omega
  refine ⟨?_, hzero, by rw [hcarry, decide_eq_true hn.symm, Bool.or_true]⟩
  unfold RtcRegs.time at hzero
  omega

/-- The registers after `n` seconds of ticks from reset. -/
def regsAfterSeconds (n : Nat) : Scheme3Regs := { Scheme3Regs.reset with live := secondsFromReset n }

@[simp] theorem regsAfterSeconds_live (n : Nat) : (regsAfterSeconds n).live = secondsFromReset n := rfl

@[simp] theorem regsAfterSeconds_rtcSub (n : Nat) : (regsAfterSeconds n).rtcSub = 0 := rfl

theorem regsAfterSeconds_succ (n : Nat) :
    regsAfterSeconds (n + 1) =
      { regsAfterSeconds n with live := secondAdvance (regsAfterSeconds n).live } := by
  rw [regsAfterSeconds, secondsFromReset_succ]
  rfl

/-- Whole seconds of ticks from reset advance the live counters, second by second. -/
theorem rtcTick_iterate_seconds {p : Nat} (hp : 1 ≤ p) (n : Nat) (hn : n ≤ 44236800) :
    (rtcTick p)^[n * p] Scheme3Regs.reset = regsAfterSeconds n := by
  induction n with
  | zero => rw [Nat.zero_mul, Function.iterate_zero]; rfl
  | succ n ih =>
    obtain ⟨-, -, -, hrun⟩ := secondsFromReset_time n (by omega)
    rw [← regsAfterSeconds_live] at hrun
    rw [Nat.succ_mul, Nat.add_comm, Function.iterate_add_apply, ih (by omega),
      rtcTick_iterate_second hrun (regsAfterSeconds_rtcSub n) hp, regsAfterSeconds_succ]

/-- Settles O38: `n` seconds of ticks advance the counters `n` times, and a clock in normal use is told by its
time; at 512 days the last advance overflows. -/
theorem clockShowsElapsedSeconds : Obligations.ClockShowsElapsedSeconds := by
  intro p hp
  refine ⟨fun n hn r hr => ?_, fun r hr => ?_⟩
  · rw [rtcTick_iterate_seconds hp n (by omega)] at hr
    obtain ⟨⟨hs, hm, hh⟩, htime, hcarry, -⟩ := secondsFromReset_time n hn
    rw [hr, regsAfterSeconds_live, regsAfterSeconds_rtcSub]
    unfold RtcRegs.time at htime
    exact ⟨by omega, by omega, by omega, by omega, hcarry, rfl⟩
  · generalize hn : (44236800 : Nat) = n at hr
    rw [rtcTick_iterate_seconds hp n (by omega)] at hr
    obtain ⟨hday, htime, hcarry⟩ := secondsFromReset_overflow hn
    rw [hr, regsAfterSeconds_live, regsAfterSeconds_rtcSub]
    exact ⟨htime, hday, hcarry, rfl⟩

end Sys2Proof.Machine
end

section
/-! PROOFS. A stage resolves its transactions in order (spec/44_scheduler.md section 3): a transaction does not
look at the coming events, so the steps of a stage agree with a script. -/

namespace Sys2Proof.Machine

/-! ### Transactions do not look at the coming events -/

/-- The state with other events to come. -/
def State.withEvents (s : State) (evs : List CoreEvent) : State := { s with events := evs }

/-- The result with other events to come. -/
def resultWithEvents (evs : List CoreEvent) : Result → Result
  | .next t => .next (t.withEvents evs)
  | .fault f => .fault f
  | .refused r => .refused r

section WithEvents

variable (s : State) (evs : List CoreEvent)

theorem unlessFatal_withEvents (k : Result) :
    unlessFatal (s.withEvents evs) (resultWithEvents evs k) = resultWithEvents evs (unlessFatal s k) := by
  cases hf : s.fatal with
  | none => rw [unlessFatal_of_none hf, unlessFatal_of_none (s := s.withEvents evs) hf]
  | some f => rw [unlessFatal_of_some hf, unlessFatal_of_some (s := s.withEvents evs) hf]; rfl

theorem onNone_withEvents (k : Result) :
    onNone (s.withEvents evs) (resultWithEvents evs k) = resultWithEvents evs (onNone s k) := by
  unfold onNone State.withEvents
  cases s.bank <;> rfl

theorem onScheme1_withEvents (k : Scheme1Regs → Result) :
    onScheme1 (s.withEvents evs) (fun r => resultWithEvents evs (k r)) =
      resultWithEvents evs (onScheme1 s k) := by
  unfold onScheme1 State.withEvents
  cases s.bank <;> rfl

theorem onScheme3_withEvents (k : Scheme3Regs → Result) :
    onScheme3 (s.withEvents evs) (fun r => resultWithEvents evs (k r)) =
      resultWithEvents evs (onScheme3 s k) := by
  unfold onScheme3 State.withEvents
  cases s.bank <;> rfl

theorem readRom_withEvents (off : Nat) (a : Addr) :
    readRom off a (s.withEvents evs) = resultWithEvents evs (readRom off a s) := by
  unfold readRom
  rw [apply_ite (resultWithEvents evs)]
  rfl

theorem readRam_withEvents (off : Nat) (a : Addr) :
    readRam off a (s.withEvents evs) = resultWithEvents evs (readRam off a s) := by
  unfold readRam
  rw [apply_ite (resultWithEvents evs)]
  rfl

theorem writeRam_withEvents (off : Nat) (a : Addr) (v : Byte) :
    writeRam off a v (s.withEvents evs) = resultWithEvents evs (writeRam off a v s) := by
  unfold writeRam
  rw [apply_ite (resultWithEvents evs)]
  rfl

theorem forward_withEvents (w : Dir) : forward w (s.withEvents evs) = (forward w s).withEvents evs := by
  cases w <;> rfl

/-- A row of Scheme None, given what stands behind its gates. -/
theorem gatedNone_withEvents {k k' : Result} (h : k' = resultWithEvents evs k) :
    unlessFatal (s.withEvents evs) (onNone (s.withEvents evs) k') =
      resultWithEvents evs (unlessFatal s (onNone s k)) := by
  rw [h, onNone_withEvents, unlessFatal_withEvents]

theorem gatedScheme1_withEvents {k k' : Scheme1Regs → Result} (h : ∀ r, k' r = resultWithEvents evs (k r)) :
    unlessFatal (s.withEvents evs) (onScheme1 (s.withEvents evs) k') =
      resultWithEvents evs (unlessFatal s (onScheme1 s k)) := by
  rw [funext h, onScheme1_withEvents, unlessFatal_withEvents]

theorem gatedScheme3_withEvents {k k' : Scheme3Regs → Result} (h : ∀ r, k' r = resultWithEvents evs (k r)) :
    unlessFatal (s.withEvents evs) (onScheme3 (s.withEvents evs) k') =
      resultWithEvents evs (unlessFatal s (onScheme3 s k)) := by
  rw [funext h, onScheme3_withEvents, unlessFatal_withEvents]

theorem exec_withEvents {i : Instr} (hbus : i.isBus = true) :
    exec i (s.withEvents evs) = resultWithEvents evs (exec i s) := by
  cases i with
  | poll | cpu | disp | tmr | yield | stopped => cases hbus
  | nRdRom => exact gatedNone_withEvents s evs (readRom_withEvents s evs _ _)
  | nWrRom | nRdX | nWrX => exact gatedNone_withEvents s evs rfl
  | s1WrRamen | s1WrRomlo | s1WrUpper | s1WrMode => exact gatedScheme1_withEvents s evs fun _ => rfl
  | s1RdRom0 | s1RdRomx => exact gatedScheme1_withEvents s evs fun _ => readRom_withEvents s evs _ _
  | s1RdXram =>
    refine gatedScheme1_withEvents s evs fun r => ?_
    split
    exacts [readRam_withEvents s evs _ _, rfl]
  | s1WrXram =>
    refine gatedScheme1_withEvents s evs fun r => ?_
    split
    exacts [writeRam_withEvents s evs _ _ _, rfl]
  | s3WrEn | s3WrRomb | s3WrLatch => exact gatedScheme3_withEvents s evs fun _ => rfl
  | s3WrSel =>
    refine gatedScheme3_withEvents s evs fun r => ?_
    dsimp only
    split <;> rfl
  | s3RdRom0 | s3RdRomx => exact gatedScheme3_withEvents s evs fun _ => readRom_withEvents s evs _ _
  | s3RdX =>
    refine gatedScheme3_withEvents s evs fun r => ?_
    split
    · split
      exacts [readRam_withEvents s evs _ _, rfl, rfl]
    · rfl
  | s3WrX =>
    refine gatedScheme3_withEvents s evs fun r => ?_
    split
    · split
      exacts [writeRam_withEvents s evs _ _ _, rfl, rfl]
    · rfl
  | fwd8 sch w | fwdC sch w =>
    exact (congrArg (fun t => unlessFatal _ (.next t)) (forward_withEvents s evs w)).trans
      (unlessFatal_withEvents s evs (.next (forward w s)))

/-- A transaction that answers does so whatever the coming events are, and keeps them. -/
theorem transact_withEvents {x : Access} {t : State} (h : transact x s = .next t) :
    transact x (s.withEvents evs) = .next (t.withEvents evs) := by
  unfold transact runWord at h ⊢
  show (match decode (.bus (x.word s.scheme)) with
    | .ok i => exec i (s.withEvents evs)
    | .error _ => .refused .undecodable) = .next (t.withEvents evs)
  cases hdecode : decode (.bus (x.word s.scheme)) with
  | error => rw [hdecode] at h; cases h
  | ok i =>
    rw [hdecode] at h
    dsimp only at h ⊢
    rw [exec_withEvents s evs (isBus_of_decode_bus hdecode), h]
    rfl

end WithEvents

/-! ### A stage and its script -/

/-- What a transaction does to the scheduler, and that it raises no strobe. -/
theorem transact_scheduler {x : Access} {s t : State} (h : transact x s = .next t) :
    t.cycleCounter = s.cycleCounter ∧ t.events = s.events ∧ t.exitLevels = s.exitLevels ∧
      t.ports.raised = [] ∧
      (t.phase = s.phase ∧ t.fatal = s.fatal ∨ t.phase = .stopped ∧ s.fatal = none ∧ t.fatal ≠ none) := by
  obtain ⟨i, hword, hexec⟩ := transact_next h
  have hbus := isBus_of_encode_bus hword
  obtain ⟨hcounter, hevents, hexit, hphase⟩ := exec_bus_scheduler hbus hexec
  exact ⟨hcounter, hevents, hexit, exec_bus_raised hbus hexec, hphase⟩

/-- A script that runs while a record is present changes nothing. -/
theorem runScript_of_fatal {xs : List Access} {s t : State} (hfatal : s.fatal ≠ none)
    (h : runScript xs s = .next t) : s.sameBlock t := by
  induction xs generalizing s with
  | nil => cases h; exact t.sameBlock_refl
  | cons x xs ih =>
    obtain ⟨u, hu, h⟩ := runScript_cons_next h
    obtain ⟨i, hword, hexec⟩ := transact_next hu
    obtain ⟨f, hf⟩ := Option.ne_none_iff_exists'.1 hfatal
    cases (exec_bus_of_fatal (isBus_of_encode_bus hword) hf).symm.trans hexec
    exact State.sameBlock_trans s.sameBlock_silent (ih hfatal h)

/-- Settles O43: by induction on the transactions. Each is one step, which answers as in the script; the first
fatal one stops the block, and what is left of the script changes nothing. -/
theorem stageRunsTransactionsInOrder : Obligations.StageRunsTransactionsInOrder := by
  intro xs rest
  induction xs with
  | nil =>
    intro s t hst hsafe hevents hscript
    have hst' : s = t := by
      rw [List.map_nil, List.nil_append] at hevents
      rw [← hevents] at hscript
      cases hscript
      rfl
    subst hst'
    refine ⟨fun _ => ⟨rfl, rfl, ?_⟩, fun h => absurd hsafe h⟩
    rw [List.map_nil, List.nil_append] at hevents
    rw [step_of_return hst (.inr ⟨rest, hevents⟩), consume_of_stage hst, hevents,
      ← s.phase.instr_of_isStage hst]
    rfl
  | cons x xs ih =>
    intro s t hst hsafe hevents hscript
    obtain ⟨u, hu, hscript⟩ := runScript_cons_next hscript
    have hstep : step s = .next (u.withEvents (xs.map Access.event ++ .done :: rest)) := by
      rw [step_of_transaction hst hevents]
      exact transact_withEvents (s.withEvents (.done :: rest)) _ hu
    obtain ⟨hcounter, hevents', -, -, hphase⟩ := transact_scheduler hu
    rcases hphase with ⟨hphase, hfatal⟩ | ⟨hphase, -, hfatal⟩
    · have hu' : (u.withEvents (xs.map Access.event ++ .done :: rest)).withEvents (.done :: rest) = u := by
        have : u.events = .done :: rest := hevents'
        rw [← this]
        rfl
      obtain ⟨hclean, hstopped⟩ := ih (u.withEvents (xs.map Access.event ++ .done :: rest)) t
        ((congrArg Phase.isStage hphase).trans hst) (hfatal.trans hsafe) rfl
        ((congrArg (runScript xs) hu').trans hscript)
      refine ⟨fun ht => ?_, fun ht => ?_⟩
      · obtain ⟨hrun, hphase', hnext⟩ := hclean ht
        refine ⟨(runSteps_succ _ hstep).trans hrun, hphase'.trans hphase, ?_⟩
        rw [show s.phase = u.phase from hphase.symm]
        exact hnext
      · obtain ⟨k, w, hk, hrun, hp, hf, hc, hb, hr, hstay⟩ := hstopped ht
        refine ⟨k + 1, w, Nat.succ_le_succ hk, (runSteps_succ k hstep).trans hrun, hp, hf,
          hc.trans hcounter, hb, hr, fun j => ?_⟩
        rw [Nat.add_right_comm, runSteps_succ _ hstep]
        exact hstay j
    · obtain ⟨-, hbank, hram, -, -, hfatal'⟩ := runScript_of_fatal hfatal hscript
      refine ⟨fun ht => absurd (hfatal'.symm.trans ht) hfatal, fun _ => ?_⟩
      refine ⟨1, _, by simp, runSteps_succ 0 hstep, hphase, hfatal'.symm, hcounter, hbank.symm, hram.symm,
        fun j => ?_⟩
      obtain ⟨w, hw, hsame, -⟩ :=
        runSteps_of_stopped j (s := u.withEvents (xs.map Access.event ++ .done :: rest)) hphase
      exact ⟨w, by rw [Nat.add_comm, runSteps_succ _ hstep, hw], hsame⟩

end Sys2Proof.Machine
end

section
/-! PROOFS. A frame (spec/44_scheduler.md sections 2, 4 and 5): from `POLL` the stages follow one another until
`MAIN_CYCLES` ticks are done or a fatal error stops the block. -/

namespace Sys2Proof.Machine

/-! ### The calls of a frame -/

/-- Call `q` of the stages of a frame is the strobe of stage `q % 3`. -/
theorem stageCalls_getElem? (m q : Nat) (hq : q < 3 * m) :
    ((List.replicate m [Call.cpuAdvance, .displayAdvance, .timerAdvance]).flatten[q]?).toList =
      (stageAt (q % 3)).strobe := by
  induction m generalizing q with
  | zero => omega
  | succ m ih =>
    rw [List.replicate_succ, List.flatten_cons]
    match q with
    | 0 | 1 | 2 => rfl
    | q + 3 =>
      rw [Nat.add_mod_right, ← ih q (by omega)]
      rfl

/-- The stage that is entered adds its strobe to the calls made. -/
theorem frameCalls_take_succ {m q : Nat} (hq : q < 3 * m) :
    (frameCalls m).take (2 + q) = (frameCalls m).take (1 + q) ++ (stageAt (q % 3)).strobe := by
  rw [← stageCalls_getElem? m q hq, show 2 + q = 1 + q + 1 by omega, List.take_add_one, Nat.add_comm 1 q]
  rfl

theorem frameCalls_length (m : Nat) : (frameCalls m).length = 1 + 3 * m := by
  simp [frameCalls]
  omega

/-! ### Where a frame stands -/

/-- A frame of `m` ticks stands in its stage number `q`, with the calls `calls` made; `exits` are the levels of
`exit_request` to come. -/
structure InStage (m : Nat) (exits : List Bool) (q : Nat) (u : State) (calls : List Call) : Prop where
  inv : u.Inv
  mainCycles : u.session.mainCycles = m
  exitLevels : u.exitLevels = exits
  inside : q < 3 * m
  phase : u.phase = stageAt (q % 3)
  safe : u.fatal = none
  counter : u.cycleCounter = q / 3
  strobes : calls = (frameCalls m).take (2 + q)

/-- All ticks of the frame are done: `YIELD`. -/
structure FrameDone (m : Nat) (exits : List Bool) (u : State) (calls : List Call) : Prop where
  safe : u.fatal = none
  phase : u.phase = .yield
  counter : u.cycleCounter = m
  exitLevels : u.exitLevels = exits
  strobes : calls = frameCalls m

/-- A fatal error of stage `q` stopped the block. -/
structure FrameCut (m q : Nat) (u : State) (calls : List Call) : Prop where
  inside : q < 3 * m
  fatal : u.fatal ≠ none
  phase : u.phase = .stopped
  counter : u.cycleCounter = q / 3
  strobes : calls = (frameCalls m).take (2 + q)

/-- Stage `q` is a stage, whose number is one of 0, 1, 2. -/
theorem stage_cases (q : Nat) :
    q % 3 = 0 ∧ stageAt (q % 3) = .cpu ∨ q % 3 = 1 ∧ stageAt (q % 3) = .disp ∨
      q % 3 = 2 ∧ stageAt (q % 3) = .tmr := by
  rcases (by omega : q % 3 = 0 ∨ q % 3 = 1 ∨ q % 3 = 2) with h | h | h <;> simp [h, stageAt]

theorem stageAt_isStage (q : Nat) : (stageAt (q % 3)).isStage = true := by
  rcases stage_cases q with ⟨-, h⟩ | ⟨-, h⟩ | ⟨-, h⟩ <;> rw [h] <;> rfl

/-- The stage after stage `q` of a frame of `m` ticks, or `YIELD`. -/
def nextStage (m q : Nat) : Phase := if q + 1 = 3 * m then .yield else stageAt ((q + 1) % 3)

/-- The return of a stage's call: the next stage is entered, and its strobe raised. -/
theorem exec_stage_return {m q : Nat} {u : State} (hmain : u.session.mainCycles = m)
    (hphase : u.phase = stageAt (q % 3)) (hsafe : u.fatal = none) (hcounter : u.cycleCounter = q / 3) :
    ∃ v, exec u.phase.instr u = .next v ∧ v.fatal = none ∧ v.events = u.events ∧
      v.exitLevels = u.exitLevels ∧ v.cycleCounter = (q + 1) / 3 ∧ v.phase = nextStage m q ∧
      v.ports.raised = (nextStage m q).strobe := by
  rcases stage_cases q with ⟨hr, hstage⟩ | ⟨hr, hstage⟩ | ⟨hr, hstage⟩ <;> rw [hstage] at hphase
  · have hnext : nextStage m q = .disp := by
      rw [nextStage, if_neg (by omega), show (q + 1) % 3 = 1 by omega]; rfl
    rw [hnext, hphase]
    refine ⟨_, exec_cpu_of_phase hphase, hsafe, rfl, rfl, ?_, ?_, ?_⟩
    · show u.cycleCounter = _
      omega
    · simp [State.stageNext_eq, hsafe]
    · simp [State.stageNext_eq, hsafe]
  · have hnext : nextStage m q = .tmr := by
      rw [nextStage, if_neg (by omega), show (q + 1) % 3 = 2 by omega]; rfl
    rw [hnext, hphase]
    refine ⟨_, exec_disp_of_phase hphase, hsafe, rfl, rfl, ?_, ?_, ?_⟩
    · show u.cycleCounter = _
      omega
    · simp [State.stageNext_eq, hsafe]
    · simp [State.stageNext_eq, hsafe]
  · have hiff : u.cycleCounter + 1 = u.session.mainCycles ↔ q + 1 = 3 * m := by omega
    have hnext : nextStage m q = if u.cycleCounter + 1 = u.session.mainCycles then .yield else .cpu := by
      simp only [nextStage, hiff, show (q + 1) % 3 = 0 by omega]
      rfl
    rw [hnext, hphase]
    refine ⟨_, (exec_tmr_of_safe hphase hsafe).trans (congrArg _ u.tickEnd_eq), hsafe, rfl, rfl, ?_, rfl, ?_⟩
    · show u.cycleCounter + 1 = _
      omega
    · rw [Phase.strobe_ite]
      rfl

section Frame

variable {m q : Nat} {exits : List Bool} {u : State} {calls : List Call}
  (h : InStage m exits q u calls)

include h

theorem InStage.isStage : u.phase.isStage = true := by
  rw [h.phase]
  exact stageAt_isStage q

/-- A stage whose call returns is followed by the next one, or by the end of the frame. -/
theorem InStage.return_step (hreturn : u.events = [] ∨ ∃ rest, u.events = .done :: rest) :
    ∃ v, step u = .next v ∧ v.events = u.events.tail ∧
      (InStage m exits (q + 1) v (calls ++ v.ports.raised) ∨
        q + 1 = 3 * m ∧ FrameDone m exits v (calls ++ v.ports.raised)) := by
  have hconsume := consume_of_stage h.isStage
  obtain ⟨v, hexec, hsafe, hevents, hexits, hcounter, hphase, hraised⟩ :=
    exec_stage_return (u := consume u) ((congrArg _ (consume_session u)).trans h.mainCycles)
      ((consume_phase u).trans h.phase) ((consume_fatal u).trans h.safe)
      ((consume_cycleCounter u).trans h.counter)
  have hstep : step u = .next v := by
    rw [step_of_return h.isStage hreturn, ← consume_phase u, hexec]
  have hexits' : v.exitLevels = exits := hexits.trans ((consume_exitLevels u).trans h.exitLevels)
  refine ⟨v, hstep, by rw [hevents, hconsume], ?_⟩
  have hq := h.inside
  by_cases hlast : q + 1 = 3 * m
  · have hnext : nextStage m q = .yield := if_pos hlast
    rw [hnext] at hphase hraised
    refine .inr ⟨hlast, hsafe, hphase, by omega, hexits', ?_⟩
    rw [hraised, h.strobes, Phase.strobe_yield, List.append_nil, List.take_of_length_le]
    rw [frameCalls_length]
    omega
  · have hnext : nextStage m q = stageAt ((q + 1) % 3) := if_neg hlast
    rw [hnext] at hphase hraised
    have hinside : q + 1 < 3 * m := by omega
    refine .inl
      { inv := stepKeepsInvariant u v h.inv hstep
        mainCycles := by rw [(launchInputsNeverChange u v hstep).1]; exact h.mainCycles
        exitLevels := hexits'
        inside := hinside
        phase := hphase
        safe := hsafe
        counter := hcounter
        strobes := ?_ }
    rw [hraised, h.strobes, frameCalls_take_succ hinside, show 1 + (q + 1) = 2 + q by omega]

/-- A transaction stays in its stage, or stops the block. -/
theorem InStage.transaction_step {x : Access} {rest : List CoreEvent} (hevents : u.events = x.event :: rest) :
    ∃ v, step u = .next v ∧ v.events = rest ∧
      (InStage m exits q v (calls ++ v.ports.raised) ∨ FrameCut m q v (calls ++ v.ports.raised)) := by
  obtain ⟨v, hstep⟩ := everyLegalStateHasNext u h.inv
  obtain ⟨hcounter, hevents', hexits, hraised, hphase⟩ :=
    transact_scheduler ((step_of_transaction h.isStage hevents).symm.trans hstep)
  refine ⟨v, hstep, hevents', ?_⟩
  rw [hraised, List.append_nil]
  rcases hphase with ⟨hphase, hfatal⟩ | ⟨hphase, -, hfatal⟩
  · exact .inl
      { inv := stepKeepsInvariant u v h.inv hstep
        mainCycles := by rw [(launchInputsNeverChange u v hstep).1]; exact h.mainCycles
        exitLevels := hexits.trans h.exitLevels
        inside := h.inside
        phase := hphase.trans h.phase
        safe := hfatal.trans h.safe
        counter := hcounter.trans h.counter
        strobes := h.strobes }
  · exact .inr ⟨h.inside, hfatal, hphase, hcounter.trans h.counter, h.strobes⟩

end Frame

/-- The frame is over: done, or cut short by a fatal error of some stage. -/
def FrameEnds (m : Nat) (exits : List Bool) (u : State) (calls : List Call) : Prop :=
  FrameDone m exits u calls ∨ ∃ q, FrameCut m q u calls

/-- From a stage the frame ends, and until then it stands in a stage. The events left and the stages left bound
the steps. -/
theorem frame_ends (d : Nat) {m q : Nat} {exits : List Bool} {u : State} {calls : List Call}
    (h : InStage m exits q u calls) (hd : u.events.length + (3 * m - q) ≤ d) :
    ∃ n t, runSteps n u = .next t ∧ FrameEnds m exits t (calls ++ strobesIn n u) ∧
      ∀ k v, k < n → runSteps k u = .next v → ∃ q', InStage m exits q' v (calls ++ strobesIn k u) := by
  induction d generalizing q u calls with
  | zero => have := h.inside; omega
  | succ d ih =>
    have hstep : ∃ v, step u = .next v ∧ (FrameEnds m exits v (calls ++ v.ports.raised) ∨
        ∃ q', InStage m exits q' v (calls ++ v.ports.raised) ∧ v.events.length + (3 * m - q') ≤ d) := by
      have hq := h.inside
      rcases events_cases u.events with hev | ⟨x, rest, hev⟩
      · obtain ⟨v, hv, hevents, hin | ⟨-, hdone⟩⟩ := h.return_step hev
        · refine ⟨v, hv, .inr ⟨_, hin, ?_⟩⟩
          rw [hevents, List.length_tail]
          omega
        · exact ⟨v, hv, .inl (.inl hdone)⟩
      · obtain ⟨v, hv, hevents, hin | hcut⟩ := h.transaction_step hev
        · refine ⟨v, hv, .inr ⟨_, hin, ?_⟩⟩
          rw [hev, List.length_cons] at hd
          rw [hevents]
          omega
        · exact ⟨v, hv, .inl (.inr ⟨q, hcut⟩)⟩
    obtain ⟨v, hv, hend | ⟨q', hin, hd'⟩⟩ := hstep
    · refine ⟨1, v, runSteps_succ 0 hv, ?_, fun k w hk hw => ?_⟩
      · rwa [strobesIn_succ 0 hv, strobesIn_zero, List.append_nil]
      · obtain rfl : k = 0 := by omega
        cases hw
        exact ⟨q, by rwa [strobesIn_zero, List.append_nil]⟩
    · obtain ⟨n, t, hrun, hend, hbefore⟩ := ih hin hd'
      refine ⟨n + 1, t, by rw [runSteps_succ n hv, hrun], ?_, fun k w hk hw => ?_⟩
      · rwa [strobesIn_succ n hv, ← List.append_assoc]
      · cases k with
        | zero => cases hw; exact ⟨q, by rwa [strobesIn_zero, List.append_nil]⟩
        | succ k =>
          rw [runSteps_succ k hv] at hw
          rw [strobesIn_succ k hv, ← List.append_assoc]
          exact hbefore k w (by omega) hw

/-- `POLL` enters the first stage of the frame. -/
theorem inStage_of_poll {s : State} (hinv : s.Inv) (hphase : s.phase = .poll) :
    ∃ v, step s = .next v ∧ v.events = s.events ∧
      InStage s.session.mainCycles s.exitLevels 0 v v.ports.raised := by
  have hsafe := hinv.safe (by rw [hphase]; decide)
  have hstep : step s = .next s.frameStart := by
    rw [step_of_not_stage (by rw [hphase]; rfl), hphase]
    exact pollStartsFrame s hsafe hphase
  have hm := hinv.mainCycles_pos
  refine ⟨_, hstep, rfl,
    { inv := stepKeepsInvariant s _ hinv hstep
      mainCycles := rfl
      exitLevels := rfl
      inside := by omega
      phase := rfl
      safe := hsafe
      counter := rfl
      strobes := ?_ }⟩
  rw [frameCalls_take_succ (by omega)]
  rfl

/-- `YIELD` signals the end of the frame and samples `exit_request` once. -/
theorem step_of_frameDone {m : Nat} {exits : List Bool} {t : State} {calls : List Call}
    (h : FrameDone m exits t calls) :
    ∃ u, step t = .next u ∧ u.ports.call = some .frameDone ∧
      u.phase = if exits.headD false then .stopped else .poll := by
  have hinstr : t.phase.instr = .yield := by rw [h.phase]; rfl
  rw [step_of_not_stage (by rw [h.phase]; rfl), hinstr, exec_yield_of_safe h.phase h.safe,
    State.exitRequest, h.exitLevels]
  exact ⟨_, rfl, rfl, rfl⟩

/-- If the cores issue nothing, stage `q` of the frame is reached in step `1 + q`. -/
theorem inStage_of_quiet {s : State} (hinv : s.Inv) (hphase : s.phase = .poll) (hevents : s.events = [])
    (q : Nat) (hq : q < 3 * s.session.mainCycles) :
    ∃ t, runSteps (1 + q) s = .next t ∧ t.events = [] ∧
      InStage s.session.mainCycles s.exitLevels q t (strobesIn (1 + q) s) := by
  induction q with
  | zero =>
    obtain ⟨v, hv, hev, hin⟩ := inStage_of_poll hinv hphase
    refine ⟨v, runSteps_succ 0 hv, hev.trans hevents, ?_⟩
    rw [strobesIn_succ 0 hv, strobesIn_zero, List.append_nil]
    exact hin
  | succ q ih =>
    obtain ⟨t, hrun, hev, hin⟩ := ih (by omega)
    obtain ⟨v, hv, hev', hin' | ⟨hlast, -⟩⟩ := hin.return_step (.inl hev)
    · refine ⟨v, ?_, by rw [hev', hev]; rfl, ?_⟩
      · rw [← Nat.add_assoc, runSteps_add 1 hrun, runSteps_succ 0 hv, runSteps_zero]
      · rw [← Nat.add_assoc, strobesIn_add 1 hrun, strobesIn_succ 0 hv, strobesIn_zero, List.append_nil]
        exact hin'
    · omega

/-- If the cores issue nothing, all ticks are done after the last stage. -/
theorem frameDone_of_quiet {s : State} (hinv : s.Inv) (hphase : s.phase = .poll) (hevents : s.events = []) :
    ∃ t, runSteps (1 + 3 * s.session.mainCycles) s = .next t ∧
      ∃ calls, FrameDone s.session.mainCycles s.exitLevels t calls := by
  have hm := hinv.mainCycles_pos
  obtain ⟨q, hq⟩ : ∃ q, 3 * s.session.mainCycles = q + 1 := ⟨3 * s.session.mainCycles - 1, by omega⟩
  obtain ⟨t, hrun, hev, hin⟩ := inStage_of_quiet hinv hphase hevents q (by omega)
  obtain ⟨v, hv, -, hin' | ⟨-, hdone⟩⟩ := hin.return_step (.inl hev)
  · have := hin'.inside
    omega
  · refine ⟨v, ?_, _, hdone⟩
    rw [hq, ← Nat.add_assoc, runSteps_add 1 hrun, runSteps_succ 0 hv, runSteps_zero]

/-- Settles O44: `POLL` enters the first stage, and from a stage the frame ends, its steps bounded by the events
and the stages left. -/
theorem frameIsMainCyclesTicks : Obligations.FrameIsMainCyclesTicks := by
  intro s m hinv hphase hm
  subst hm
  refine ⟨?_, fun hevents => ⟨fun j hj => ?_, ?_, ?_⟩⟩
  · obtain ⟨v, hv, -, hin⟩ := inStage_of_poll hinv hphase
    obtain ⟨n, t, hrun, hend, hbefore⟩ := frame_ends _ hin (Nat.le_refl _)
    have hrun' : runSteps (n + 1) s = .next t := by rw [runSteps_succ n hv, hrun]
    rw [← strobesIn_succ n hv] at hend
    refine ⟨n + 1, t, hrun', fun k u hk hk' hu => ?_, fun hsafe => ?_, fun hfatal => ?_⟩
    · obtain ⟨k, rfl⟩ : ∃ l, k = l + 1 := ⟨k - 1, by omega⟩
      rw [runSteps_succ k hv] at hu
      obtain ⟨q, hq⟩ := hbefore k u (by omega) hu
      rw [← strobesIn_succ k hv] at hq
      have hcounter := hq.counter
      have hinside := hq.inside
      refine ⟨q % 3, by omega, hq.phase, hq.safe, by omega, ?_⟩
      rw [hq.strobes, show 2 + 3 * u.cycleCounter + q % 3 = 2 + q by omega]
    · rcases hend with hdone | ⟨q, hcut⟩
      · obtain ⟨u, hu, hcall, hu'⟩ := step_of_frameDone hdone
        exact ⟨hdone.phase, hdone.counter, hdone.strobes, u,
          by rw [runSteps_add 1 hrun', runSteps_succ 0 hu, runSteps_zero], hcall, hu'⟩
      · exact absurd hsafe hcut.fatal
    · rcases hend with hdone | ⟨q, hcut⟩
      · exact absurd hdone.safe hfatal
      · have hcounter := hcut.counter
        have hinside := hcut.inside
        refine ⟨hcut.phase, by omega, q % 3, by omega, ?_⟩
        rw [hcut.strobes, show 2 + 3 * t.cycleCounter + q % 3 = 2 + q by omega]
  · obtain ⟨t, hrun, -, hin⟩ := inStage_of_quiet hinv hphase hevents j hj
    exact ⟨t, hrun, hin.phase, hin.counter⟩
  · obtain ⟨t, hrun, _, hdone⟩ := frameDone_of_quiet hinv hphase hevents
    exact ⟨t, hrun, hdone.phase, hdone.counter⟩
  · obtain ⟨t, hrun, _, hdone⟩ := frameDone_of_quiet hinv hphase hevents
    obtain ⟨u, hu, -, hphase'⟩ := step_of_frameDone hdone
    refine ⟨u, ?_, hphase'⟩
    rw [show 2 + 3 * s.session.mainCycles = 1 + 3 * s.session.mainCycles + 1 by omega,
      runSteps_add 1 hrun, runSteps_succ 0 hu, runSteps_zero]

end Sys2Proof.Machine
end
